-- ==== Sys2Proof/Word.lean ====
section
/-! DEFINITION. The word types of the core: lanes, bytes, command words and the 25-lane state array
(`00_scope.md` R7, R11; `30_encoding.md` R60). -/

namespace Sys2Proof

/-- One 64-bit element `A[i]` of the state (R7). -/
abbrev Lane := BitVec 64

/-- One 8-bit element `S[k]` of the state, and every 8-bit register (R11, R23). -/
abbrev Byte := BitVec 8

/-- One 16-bit command word (R60). -/
abbrev CommandWord := BitVec 16

/-- The state array as its 25 lanes `A[0]` … `A[24]` (R20). The byte view is computed from it, never
stored beside it (R92: "a model should not keep two copies of the state"). -/
abbrev Lanes := Vector Lane 25

/-- The all-zero state array. -/
def zeroLanes : Lanes := Vector.replicate 25 0

end Sys2Proof
end

