-- ==== Sys2Proof/Syntax.lean ====
section
/-! DEFINITION. The five commands of `spec/opcode_table.json`, one constructor per row
(`30_encoding.md` R63). -/

namespace Sys2Proof

/-- A decoded command. The operand of `INIT` and `ABSORB` is the 8-bit field `IMM8`, taken as it
stands (R62); the other three commands have none. -/
inductive Instr where
  /-- `INIT L`: start a new sponge context with output length `L` bytes (R111). -/
  | init (L : Byte)
  /-- `ABSORB data`: absorb one input byte (R113). -/
  | absorb (data : Byte)
  /-- `FINALIZE`: pad with the SHA-3 suffix, permute, emit the digest (R130). -/
  | finalize
  /-- `BEGIN_SQUEEZE`: pad with the SHAKE suffix, permute, enter squeeze mode (R140). -/
  | beginSqueeze
  /-- `SQUEEZE`: emit one output byte (R141). -/
  | squeeze
  deriving DecidableEq, Repr

end Sys2Proof
end

