-- ==== Sys2Proof/Assembly.lean ====
section
/-! DEFINITION. The assembler's source lines: the forms of `30_encoding.md` R68 and the
pseudo-instructions of R69. An operand is a plain number here, because a source line may hold one that
fits no field; `AsmLine.wellFormed` is the check. -/

namespace Sys2Proof

/-- One line of assembler source (R68), or one pseudo-instruction (R69). -/
inductive AsmLine where
  /-- `INIT <L>`, `L` in 0..255. -/
  | init (L : Nat)
  /-- `ABSORB <byte>`, `byte` in 0..255. -/
  | absorb (byte : Nat)
  /-- `ABSORB 'c'`: the byte is the ASCII code of the character. -/
  | absorbChar (c : Char)
  /-- `FINALIZE`. -/
  | finalize
  /-- `BEGIN_SQUEEZE`. -/
  | beginSqueeze
  /-- `SQUEEZE`. -/
  | squeeze
  /-- `.word <w>`, `w` in 0..0xFFFF, emitted unchanged. -/
  | word (w : Nat)
  /-- `ABSORB_BYTES m`. -/
  | absorbBytes (m : List Byte)
  /-- `SQUEEZE_N n`. -/
  | squeezeN (n : Nat)
  /-- `HASH L, m`. -/
  | hash (L : Nat) (m : List Byte)
  /-- `SHA3_224 m`. -/
  | sha3_224 (m : List Byte)
  /-- `SHA3_256 m`. -/
  | sha3_256 (m : List Byte)
  /-- `SHA3_384 m`. -/
  | sha3_384 (m : List Byte)
  /-- `SHA3_512 m`. -/
  | sha3_512 (m : List Byte)
  /-- `SHAKE128 m, n`. -/
  | shake128 (m : List Byte) (n : Nat)
  /-- `SHAKE256 m, n`. -/
  | shake256 (m : List Byte) (n : Nat)
  deriving DecidableEq, Repr

/-- Why a source line is an assembly error. -/
inductive AsmError where
  /-- An operand outside `0..255` (or outside `0..0xFFFF` for `.word`) (R68). -/
  | operandOutOfRange
  /-- The line has tokens and none of the forms of R68 (log entry 6). -/
  | badForm
  deriving DecidableEq, Repr

end Sys2Proof
end

