-- ==== Sys2Proof/WellFormed.lean ====
section
/-! DEFINITION. Well-formedness of source lines. A decoded command (`Instr`) needs no check: its one
operand has the width of its field (R61, R62), so every term of the type has an encoding. What can be
ill-formed is an assembler line, whose operand "outside `0..255` (or outside `0..0xFFFF` for `.word`) is
an assembly error" (`30_encoding.md` R68). -/

namespace Sys2Proof

/-- The operand of an assembler line fits its field (R68). -/
def AsmLine.wellFormed : AsmLine → Bool
  | .init L => decide (L ≤ 255)
  | .absorb b => decide (b ≤ 255)
  | .absorbChar c => decide (c.toNat ≤ 127)
  | .word w => decide (w ≤ 0xFFFF)
  | .hash L _ => decide (L ≤ 255)
  | .finalize => true
  | .beginSqueeze => true
  | .squeeze => true
  | .absorbBytes _ => true
  | .squeezeN _ => true
  | .sha3_224 _ => true
  | .sha3_256 _ => true
  | .sha3_384 _ => true
  | .sha3_512 _ => true
  | .shake128 _ _ => true
  | .shake256 _ _ => true

end Sys2Proof
end

