-- ==== Sys2Proof/Decode.lean ====
section
/-! DEFINITION. The command decoder, total on 16-bit words and rejecting by name, and the encoder
(`30_encoding.md` R60 to R65). The model takes a command as a 16-bit value: its byte order on a bus is
out of scope (R67, D17). -/

namespace Sys2Proof

/-- Why a word is no command: the three cases of R64. -/
inductive IllegalWord where
  /-- `RSV != 0`. -/
  | reservedBits
  /-- `OPC` is `0x0` or one of `0x6` … `0xF`. -/
  | opcode
  /-- `OPC` is `0x3`, `0x4` or `0x5` and `IMM8 != 0`. -/
  | immediate
  deriving DecidableEq, Repr

/-- `OPC = word[15:12]` (R61). -/
def opcField (w : CommandWord) : BitVec 4 := w.extractLsb' 12 4

/-- `RSV = word[11:8]` (R61). -/
def rsvField (w : CommandWord) : BitVec 4 := w.extractLsb' 8 4

/-- `IMM8 = word[7:0]`, unsigned, with no extension, scaling or shift (R61, R62). -/
def immField (w : CommandWord) : Byte := w.extractLsb' 0 8

/-- A command whose `IMM8` must be `0x00` (R61, R65). -/
def withoutOperand (imm : Byte) (i : Instr) : Except IllegalWord Instr :=
  if imm = 0 then .ok i else .error .immediate

/-- The decoder of R65, a total function on 16-bit words. -/
def decode (w : CommandWord) : Except IllegalWord Instr :=
  if rsvField w ≠ 0 then .error .reservedBits
  else if opcField w = 0x1 then .ok (.init (immField w))
  else if opcField w = 0x2 then .ok (.absorb (immField w))
  else if opcField w = 0x3 then withoutOperand (immField w) .finalize
  else if opcField w = 0x4 then withoutOperand (immField w) .beginSqueeze
  else if opcField w = 0x5 then withoutOperand (immField w) .squeeze
  else .error .opcode

/-- The command word `OPC ++ RSV ++ IMM8` with `RSV = 0000` (R61: pattern `OOOO 0000 IIIIIIII`). -/
def assembleWord (opc : BitVec 4) (imm : Byte) : CommandWord := opc ++ (0 : BitVec 4) ++ imm

/-- The word of each command, from the opcode map of R63. -/
def encode : Instr → CommandWord
  | .init L => assembleWord 0x1 L
  | .absorb data => assembleWord 0x2 data
  | .finalize => assembleWord 0x3 0
  | .beginSqueeze => assembleWord 0x4 0
  | .squeeze => assembleWord 0x5 0

/-- The command word the host numbers as `nbits` bits of `w`, the bits above them zero. A command is one
16-bit word (R60), so later words of a longer number are not part of it. -/
def commandWordOf (nbits w : Nat) : CommandWord := BitVec.ofNat 16 (w % 2 ^ nbits)

/-- The decoder as the host asks for it, on a word numbered as `spec/opcode_table.json` numbers it. -/
def decodeTableWord (nbits w : Nat) : Option Instr := (decode (commandWordOf nbits w)).toOption

end Sys2Proof
end

