-- ==== Sys2Proof/Machine/State.lean ====
section
/-! DEFINITION. The state of one core, as plain data (`10_state.md`), with the host's side of the command
interface beside it, the two reasons a step can stop, and the state after reset. -/

namespace Sys2Proof.Machine

/-- `MODE`, the lifecycle stage (R23, R27). All four 2-bit values are legal. -/
inductive Mode where
  /-- `0` IDLE: no context yet; the source's "Created" (C11, D19). -/
  | idle
  /-- `1` ABSORBING. -/
  | absorbing
  /-- `2` FIXED_SQUEEZED. -/
  | fixedSqueezed
  /-- `3` XOF_SQUEEZING. -/
  | xofSqueezing
  deriving DecidableEq, Repr

/-- A status code, of a response (R160) or recorded in `ERR` (R23). All four 2-bit values are legal. -/
inductive Status where
  /-- `0` OK: the command completed. -/
  | ok
  /-- `1` INVALID_PARAMETER, raised by `INIT` alone (R161). -/
  | invalidParameter
  /-- `2` INVALID_STATE: a command not allowed in the current `MODE` (R162). -/
  | invalidState
  /-- `3` ILLEGAL_COMMAND: the word decodes to no command (R163). -/
  | illegalCommand
  deriving DecidableEq, Repr

/-- The answer to one command: its status and the bytes it emitted, in order (R67). -/
structure Response where
  status : Status
  data : List Byte
  deriving DecidableEq, Repr

/-- One core and its host's command interface. The registers are those of R20 and R23; the last two
fields are the model's form of the interface (log entries 2 and 3). -/
structure State where
  /-- The state array `A[0]` … `A[24]`, also viewed as the bytes `S[0]` … `S[199]` (R13, R20). -/
  lanes : Lanes
  /-- `MODE` (R27). -/
  mode : Mode
  /-- `ERR`, sticky: the first failure since reset (R28). -/
  err : Status
  /-- `OUTLEN`, the output length in bytes (R24). -/
  outlen : Byte
  /-- `RATE`, the rate in bytes (R25). -/
  rate : Byte
  /-- `CURSOR`, the offset of the next byte within the block (R26). -/
  cursor : Byte
  /-- The words the host has still to issue, the next one first. The core holds at most one command
  (R54); the sequence is the host's (R29). -/
  commands : List CommandWord
  /-- The responses answered so far, oldest first, in command order (R55). -/
  responses : List Response
  deriving DecidableEq, Repr

/-- Why the machine stops. The spec has no such event (R42, R164): a failing command is answered and the
core goes on (R165), so that is a next state and no fault. -/
inductive Fault where
  /-- A command's implicit byte index lies outside `0..199`, where R40 says no byte exists. Raised by
  `ABSORB`, `FINALIZE`, `BEGIN_SQUEEZE` and `SQUEEZE` in states that no run from reset reaches (R42).
  Safe: the machine stops where the spec gives no meaning (log entry 4). -/
  | addressOutsideState (k : Nat)
  deriving DecidableEq, Repr

/-- Why the model gives an instruction no meaning. -/
inductive Refusal where
  /-- An arm of `exec` without a meaning, by mnemonic. Raised by no command: all five have their
  meaning. Safe: it would stop a run. -/
  | notModelled (mnemonic : String)
  deriving DecidableEq, Repr

/-- The core right after reset (R38, R190): `MODE = IDLE`, `ERR = OK`, `OUTLEN = RATE = CURSOR = 0`, no
command in progress, no response pending. The state array is unspecified (R37: "A model may therefore
choose any value, including zero"); DESIGN CHOICE zero, log entry 1. -/
def State.reset : State where
  lanes := zeroLanes
  mode := .idle
  err := .ok
  outlen := 0
  rate := 0
  cursor := 0
  commands := []
  responses := []

end Sys2Proof.Machine
end

