-- ==== Sys2Proof/Machine/Flags.lean ====
section
/-! DEFINITION. The core's only status: the codes of `MODE` and `ERR`, the sticky error record, and the
`STATUS` output (`10_state.md` R23, R28, R30, R31). The core has no arithmetic flags (R31). -/

namespace Sys2Proof.Machine

/-- The 2-bit value of `MODE` (R23). -/
def modeCode : Mode → BitVec 2
  | .idle => 0
  | .absorbing => 1
  | .fixedSqueezed => 2
  | .xofSqueezing => 3

/-- The 2-bit value of a status code (R23, R160). -/
def statusCode : Status → BitVec 2
  | .ok => 0
  | .invalidParameter => 1
  | .invalidState => 2
  | .illegalCommand => 3

/-- `ERR` after a failure with code `E` (R165: `if ERR == OK then ERR <- E`). It is sticky: a later
failure does not change it (R28). -/
def recordError (E err : Status) : Status := if err = .ok then E else err

/-- The status output: `STATUS[1:0] = MODE`, `STATUS[3:2] = ERR` (R30). -/
def statusOutput (s : State) : BitVec 4 := statusCode s.err ++ modeCode s.mode

end Sys2Proof.Machine
end

