-- ==== Sys2Proof/Machine/Keccak.lean ====
section
/-! DEFINITION. The Keccak-f[1600] permutation (`40_keccak_f_1600_permutation.md`). Lane `A[x + 5*y]` is
at column `x`, row `y`; lattice indices are taken mod 5 (R13). -/

namespace Sys2Proof.Machine

/-- `ROTL64(x, n)` for `0 < n < 64`: `(x << n) | (x >> (64 - n))` (R12). -/
def rotl64 (x : Lane) (n : Nat) : Lane := (x <<< n) ||| (x >>> (64 - n))

/-- The table of R84 as the spec prints it: row `r` holds `RC[r]` and `RC[r + 12]`. The values are the
spec's supplement from general knowledge (log entry 7). -/
def roundConstantRows : Vector (Lane × Lane) 12 := #v[
  (0x0000000000000001, 0x000000008000808B),
  (0x0000000000008082, 0x800000000000008B),
  (0x800000000000808A, 0x8000000000008089),
  (0x8000000080008000, 0x8000000000008003),
  (0x000000000000808B, 0x8000000000008002),
  (0x0000000080000001, 0x8000000000000080),
  (0x8000000080008081, 0x000000000000800A),
  (0x8000000000008009, 0x800000008000000A),
  (0x000000000000008A, 0x8000000080008081),
  (0x0000000000000088, 0x8000000000008080),
  (0x0000000080008009, 0x0000000080000001),
  (0x000000008000000A, 0x8000000080008008)]

/-- The round constant `RC[r]` (R84), out of the two columns of its table. -/
def roundConstant (r : Fin 24) : Lane :=
  if h : r.val < 12 then roundConstantRows[r.val].1 else roundConstantRows[r.val - 12].2

/-- The rotation amounts `ROTC[0..23]`, all in `[1, 63]` (R85). -/
def rotationTable : Vector Nat 24 :=
  #v[1, 3, 6, 10, 15, 21, 28, 36, 45, 55, 2, 14, 27, 41, 56, 8, 25, 43, 62, 18, 39, 61, 20, 44]

/-- The lane indices `PILN[0..23]`, each of `1..24` once (R86). -/
def laneTable : Vector (Fin 25) 24 :=
  #v[10, 7, 11, 17, 18, 3, 5, 16, 8, 21, 24, 4, 15, 23, 19, 13, 12, 2, 20, 14, 22, 9, 6, 1]

/-- The column parity `C[x]` (R82). -/
def columnParity (A : Lanes) (x : Fin 5) : Lane :=
  A[x.val] ^^^ A[x.val + 5] ^^^ A[x.val + 10] ^^^ A[x.val + 15] ^^^ A[x.val + 20]

/-- Theta (R82): all of `C` is computed from the input before any lane changes. -/
def theta (A : Lanes) : Lanes :=
  let C : Vector Lane 5 := .ofFn (columnParity A)
  .ofFn fun i => A[i] ^^^ (C[(i.val + 4) % 5] ^^^ rotl64 C[(i.val + 1) % 5] 1)

/-- One iteration of the fused rho/pi loop (R83): the carry `t` goes rotated into lane `PILN[i]`, and
that lane's old value becomes the carry. -/
def rhoPiStep (p : Lanes × Lane) (i : Fin 24) : Lanes × Lane :=
  let j := laneTable.get i
  (p.1.set j.val (rotl64 p.2 (rotationTable.get i)), p.1.get j)

/-- Rho and pi, fused (R83): 24 iterations (C4), the carry starting as lane 1. -/
def rhoPi (A : Lanes) : Lanes := ((List.finRange 24).foldl rhoPiStep (A, A[1])).1

/-- Chi (R87): each lane from a snapshot of its row. -/
def chi (A : Lanes) : Lanes :=
  .ofFn fun i =>
    let y := i.val / 5
    let x := i.val % 5
    A[i] ^^^ (~~~A[5 * y + (x + 1) % 5] &&& A[5 * y + (x + 2) % 5])

/-- Iota (R88): the round constant goes into lane 0 alone. -/
def iota (r : Fin 24) (A : Lanes) : Lanes := A.set 0 (A[0] ^^^ roundConstant r)

/-- One round, `Rnd(A, r) = iota(chi(rhopi(theta(A))), r)` (R81, R89). -/
def keccakRound (A : Lanes) (r : Fin 24) : Lanes := iota r (chi (rhoPi (theta A)))

/-- The permutation: rounds 0, 1, …, 23 in increasing order (R90). Irreducible, so that the elaborator
never runs 24 rounds by itself; `unfold` and the kernel's evaluation work as for any definition. -/
@[irreducible] def keccakF (A : Lanes) : Lanes := (List.finRange 24).foldl keccakRound A

end Sys2Proof.Machine
end

