-- ==== Sys2Proof/Machine/Operands.lean ====
section
/-! DEFINITION. The operands of the commands: the output length of `INIT` and the implicit byte indices
(`00_scope.md` R8; `20_memory.md` R40, R41). -/

namespace Sys2Proof.Machine

/-- The legal output lengths: exactly 16, 20, 28, 32, 48 and 64 (R8, R112, C7). -/
def legalLength (L : Byte) : Bool :=
  L = 16 || L = 20 || L = 28 || L = 32 || L = 48 || L = 64

/-- `RATE = 200 - 2*L` (R8, R25); no legal length wraps. -/
def rateOf (L : Byte) : Byte := 200 - 2 * L

/-- `RATE - 1`, the index of the terminator byte (R41, R51). -/
def terminatorIndex (rate : Byte) : Byte := rate - 1

/-- Go on with the byte index `k` if the state has that byte; the state's bytes are `0..199` (R40). An
index outside stops the machine (log entry 4). -/
def withIndex (k : Byte) (go : Fin 200 → Host.Outcome State Fault Refusal) :
    Host.Outcome State Fault Refusal :=
  if h : k.toNat < 200 then go ⟨k.toNat, h⟩ else .fault (.addressOutsideState k.toNat)

/-- Go on if the digest range `0 .. n-1` lies inside the state (R41); byte 200 is the first one that
does not exist (log entry 4). -/
def withDigestRange (n : Byte) (r : Host.Outcome State Fault Refusal) :
    Host.Outcome State Fault Refusal :=
  if n.toNat ≤ 200 then r else .fault (.addressOutsideState 200)

end Sys2Proof.Machine
end

