-- ==== Sys2Proof/Machine/Ops.lean ====
section
/-! DEFINITION. The shared operations of the commands: the byte view of the state array, padding, the
permutation, the response, the failure of a command, and taking the host's next command word
(`00_scope.md` R13, R14; `20_memory.md`; `60_exceptions.md` R165). -/

namespace Sys2Proof.Machine

/-- The lane that holds byte `k` (R13). -/
def laneOf (k : Fin 200) : Fin 25 := ⟨k.val / 8, by omega⟩

/-- The lowest bit of byte `k` within its lane (R13, R44). -/
def bitOf (k : Fin 200) : Nat := 8 * (k.val % 8)

/-- `S[k] = A[k div 8][8*(k mod 8)+7 : 8*(k mod 8)]` (R13). -/
def byteAt (A : Lanes) (k : Fin 200) : Byte := (A.get (laneOf k)).extractLsb' (bitOf k) 8

/-- Replace the 8 bits of a lane that start at bit `n`. -/
def replaceByte (x : Lane) (n : Nat) (b : Byte) : Lane :=
  (x &&& ~~~((0xFF : Lane) <<< n)) ||| (b.setWidth 64 <<< n)

/-- `S[k] <- b`: writing a byte writes the lane that holds it (R13, R45). -/
def setByte (A : Lanes) (k : Fin 200) (b : Byte) : Lanes :=
  A.set (laneOf k).val (replaceByte (A.get (laneOf k)) (bitOf k) b)

/-- `S[k] <- S[k] ^ b` (R113, R130, R140). -/
def xorByte (A : Lanes) (k : Fin 200) (b : Byte) : Lanes := setByte A k (byteAt A k ^^^ b)

/-- The whole byte view of a lane array (R46). -/
def lanesToBytes (A : Lanes) : Vector Byte 200 := .ofFn (byteAt A)

/-- Byte `j` of the eight that make up lane `i`. -/
def byteOfLane (S : Vector Byte 200) (i : Fin 25) (j : Fin 8) : Byte :=
  S.get ⟨8 * i.val + j.val, by omega⟩

/-- The lane view of a byte array: lane `i = S[8i+7] ++ S[8i+6] ++ … ++ S[8i]` (R43, R46). -/
def bytesToLanes (S : Vector Byte 200) : Lanes :=
  .ofFn fun i =>
    byteOfLane S i 7 ++ byteOfLane S i 6 ++ byteOfLane S i 5 ++ byteOfLane S i 4 ++
      byteOfLane S i 3 ++ byteOfLane S i 2 ++ byteOfLane S i 1 ++ byteOfLane S i 0

/-- The bytes `S[0]` … `S[n-1]`, in index order (R130; D5). -/
def digestBytes (A : Lanes) (n : Byte) : List Byte :=
  ((List.finRange 200).take n.toNat).map (byteAt A)

/-- The domain suffix at the cursor, then the padding terminator `0x80` at byte `RATE - 1`. Both XORs
apply, also when they hit one byte (R130, R131, R140). -/
def padLanes (A : Lanes) (suffix : Byte) (cursor terminator : Fin 200) : Lanes :=
  xorByte (xorByte A cursor suffix) terminator 0x80

/-- `Permute()`: `A <- keccak_f(A)` on all 25 lanes; no other register changes (R93). -/
def permute (s : State) : State := { s with lanes := keccakF s.lanes }

/-- Answer the current command with `(status, data)` (R67); responses keep command order (R55). -/
def respond (st : Status) (data : List Byte) (s : State) : State :=
  { s with responses := s.responses ++ [⟨st, data⟩] }

/-- A command fails with code `E` (R165; the core's one exception entry): `ERR` records `E` if it is the
first failure, the response is `(E, empty)`, and nothing else changes. There is no trap, no saved
register, no handler and no return (R167, R168): the core goes on with the next command. -/
def fail (E : Status) (s : State) : Host.Outcome State Fault Refusal :=
  .next (respond E [] { s with err := recordError E s.err })

/-- An illegal word raises ILLEGAL_COMMAND, in every mode (R64, R163, R166). -/
def illegalCommand (s : State) : Host.Outcome State Fault Refusal := fail .illegalCommand s

/-- Take the next word the host issues, if there is one: words come one at a time, in order (R53, R54). -/
def takeCommand (s : State) : Option (CommandWord × State) :=
  match s.commands with
  | [] => none
  | w :: rest => some (w, { s with commands := rest })

/-- With no command to run the core waits: "It loses no state while waiting" (R178). -/
def waitForCommand (s : State) : Host.Outcome State Fault Refusal := .next s

/-- The reset input (R190): every register takes its reset value, whatever it held, and no response is
pending. It is the one thing that sets `ERR` back to OK (R28, R193). The words the host has still to
issue are the host's own (R29). It is an input of the core, not a command; the array is as log entry 1
says. -/
def resetCore (s : State) : State := { State.reset with commands := s.commands }

/-- The host issues the word `w` next. -/
def presentWord (w : CommandWord) (s : State) : State := { s with commands := w :: s.commands }

end Sys2Proof.Machine
end

