-- ==== Sys2Proof/Machine/Finalizer.lean ====
section
/-! DEFINITION. The fixed-digest finalizer (`42_sha3_mode_finalizer.md`). -/

namespace Sys2Proof.Machine

/-- The SHA-3 domain separator (R130, R132). -/
def sha3Suffix : Byte := 0x06

/-- `FINALIZE` (R130): pad with the SHA-3 suffix, permute, emit `S[0]` … `S[OUTLEN-1]`. `CURSOR`, `RATE`
and `OUTLEN` are unchanged. -/
def execFinalize (s : State) : Host.Outcome State Fault Refusal :=
  if s.mode ≠ .absorbing then fail .invalidState s
  else withIndex s.cursor fun c =>
    withIndex (terminatorIndex s.rate) fun t =>
      let p := permute { s with lanes := padLanes s.lanes sha3Suffix c t }
      withDigestRange s.outlen
        (.next (respond .ok (digestBytes p.lanes s.outlen) { p with mode := .fixedSqueezed }))

end Sys2Proof.Machine
end

