-- ==== Sys2Proof/Machine/Sponge.lean ====
section
/-! DEFINITION. The commands that start a computation and feed it input
(`41_sponge_state_machine.md`). -/

namespace Sys2Proof.Machine

/-- `INIT L` (R111): in every mode, a legal length starts a new context from the zero state; `ERR` is not
cleared. Any other length fails with INVALID_PARAMETER (R112, R161). -/
def execInit (L : Byte) (s : State) : Host.Outcome State Fault Refusal :=
  if legalLength L then
    .next (respond .ok []
      { s with lanes := zeroLanes, outlen := L, rate := rateOf L, cursor := 0, mode := .absorbing })
  else fail .invalidParameter s

/-- The end of the block: `if CURSOR == RATE then Permute(); CURSOR <- 0` (R113). -/
def permuteIfFull (s : State) : State :=
  if s.cursor = s.rate then { permute s with cursor := 0 } else s

/-- `ABSORB data` (R113): XOR the byte into `S[CURSOR]`, advance, permute when the block is full. -/
def execAbsorb (data : Byte) (s : State) : Host.Outcome State Fault Refusal :=
  if s.mode ≠ .absorbing then fail .invalidState s
  else withIndex s.cursor fun c =>
    .next (respond .ok []
      (permuteIfFull { s with lanes := xorByte s.lanes c data, cursor := s.cursor + 1 }))

end Sys2Proof.Machine
end

