-- ==== Sys2Proof/Machine/Xof.lean ====
section
/-! DEFINITION. The extendable-output finalizer and squeezer (`43_shake_xof_absorber.md`). -/

namespace Sys2Proof.Machine

/-- The SHAKE domain separator (R140, R147). -/
def shakeSuffix : Byte := 0x1F

/-- `BEGIN_SQUEEZE` (R140): pad with the SHAKE suffix, permute, reset the cursor, enter squeeze mode. No
data. -/
def execBeginSqueeze (s : State) : Host.Outcome State Fault Refusal :=
  if s.mode ≠ .absorbing then fail .invalidState s
  else withIndex s.cursor fun c =>
    withIndex (terminatorIndex s.rate) fun t =>
      let p := permute { s with lanes := padLanes s.lanes shakeSuffix c t }
      .next (respond .ok [] { p with cursor := 0, mode := .xofSqueezing })

/-- The deferred permutation: `if CURSOR >= RATE then Permute(); CURSOR <- 0` (R34, R141). -/
def permuteIfUsedUp (s : State) : State :=
  if s.rate ≤ s.cursor then { permute s with cursor := 0 } else s

/-- `SQUEEZE` (R141): run the deferred permutation if the block is used up, emit `S[CURSOR]`, advance. -/
def execSqueeze (s : State) : Host.Outcome State Fault Refusal :=
  if s.mode ≠ .xofSqueezing then fail .invalidState s
  else
    let p := permuteIfUsedUp s
    withIndex p.cursor fun c =>
      .next (respond .ok [byteAt p.lanes c] { p with cursor := p.cursor + 1 })

end Sys2Proof.Machine
end

