-- ==== Sys2Proof/Machine/Step.lean ====
section
/-! DEFINITION. One step of the machine: one command, atomic towards the host (`20_memory.md` R49, R53). -/

namespace Sys2Proof.Machine

/-- Take the host's next word and run it: a legal word executes, an illegal one fails with
ILLEGAL_COMMAND (R64, R166); with no word the core waits (R178). -/
def step (s : State) : Host.Outcome State Fault Refusal :=
  match takeCommand s with
  | none => waitForCommand s
  | some (w, t) =>
    match decode w with
    | .ok i => exec i t
    | .error _ => illegalCommand t

/-- `s` with the host's word for the next step placed in front, so that the next step takes exactly it
(log entry 2). -/
def State.withFetchWord (s : State) (nbits w : Nat) : State := presentWord (commandWordOf nbits w) s

end Sys2Proof.Machine
end

