-- ==== Sys2Proof/Reference.lean ====
section
/-! DEFINITION. The sponge written block by block, from the message and the padding alone, with no
cursor, mode or command (`41_sponge_state_machine.md` R117, R118; `42_sha3_mode_finalizer.md` R130 to
R132; `43_shake_xof_absorber.md` R144). The statements compare the byte-wise command machine with it. -/

namespace Sys2Proof.Reference

open Sys2Proof.Machine

/-- XOR a block of at most 200 bytes into the state, from byte 0 on. -/
def xorBlock (A : Lanes) (block : List Byte) : Lanes :=
  bytesToLanes (.ofFn fun k => byteAt A k ^^^ block.getD k.val 0)

/-- The state after the first `n` blocks of `r` bytes of `m`, each followed by a permutation. -/
def absorbBlocks (r : Nat) (m : List Byte) : Nat → Lanes
  | 0 => zeroLanes
  | n + 1 => keccakF (xorBlock (absorbBlocks r m n) ((m.drop (n * r)).take r))

/-- The padding of a message of `len` bytes to a multiple of `r`: the domain suffix, zeros, the
terminator; one merged byte if one byte is left (R131). -/
def padding (r len : Nat) (suffix : Byte) : List Byte :=
  let k := r - len % r
  if k = 1 then [suffix ^^^ 0x80] else suffix :: List.replicate (k - 2) 0 ++ [0x80]

/-- The sponge state after the whole padded message. -/
def spongeState (r : Nat) (suffix : Byte) (m : List Byte) : Lanes :=
  absorbBlocks r (m ++ padding r m.length suffix) (m.length / r + 1)

/-- `n` permutations. -/
def permuteTimes : Nat → Lanes → Lanes
  | 0, A => A
  | n + 1, A => permuteTimes n (keccakF A)

/-- Byte `q` of the output stream that starts from the state `A`: byte `q mod r` after `q div r` more
permutations (R144). -/
def streamByte (r : Nat) (A : Lanes) (q : Nat) : Byte :=
  byteAt (permuteTimes (q / r) A) (Fin.ofNat 200 (q % r))

end Sys2Proof.Reference
end

