-- ==== Sys2Proof/Machine/Assembler.lean ====
section
/-! DEFINITION. The assembler: source text to lines, lines to command words, and what a
pseudo-instruction answers (`30_encoding.md` R68, R69). Text is a list of characters. -/

namespace Sys2Proof.Machine

/-- `ABSORB m[0]` … `ABSORB m[n-1]` (R69). -/
def absorbWords (m : List Byte) : List CommandWord := m.map fun b => encode (.absorb b)

/-- `n` copies of `SQUEEZE` (R69). -/
def squeezeWords (n : Nat) : List CommandWord := List.replicate n (encode .squeeze)

/-- `INIT L`; `ABSORB_BYTES m`; `FINALIZE` (R69). -/
def hashWords (L : Byte) (m : List Byte) : List CommandWord :=
  encode (.init L) :: absorbWords m ++ [encode .finalize]

/-- `INIT L`; `ABSORB_BYTES m`; `BEGIN_SQUEEZE`; `SQUEEZE_N n` (R69). -/
def xofWords (L : Byte) (m : List Byte) (n : Nat) : List CommandWord :=
  encode (.init L) :: absorbWords m ++ encode .beginSqueeze :: squeezeWords n

/-- The command words a well-formed line stands for (R68, R69). -/
def expand : AsmLine → List CommandWord
  | .init L => [encode (.init (BitVec.ofNat 8 L))]
  | .absorb b => [encode (.absorb (BitVec.ofNat 8 b))]
  | .absorbChar c => [encode (.absorb (BitVec.ofNat 8 c.toNat))]
  | .finalize => [encode .finalize]
  | .beginSqueeze => [encode .beginSqueeze]
  | .squeeze => [encode .squeeze]
  | .word w => [BitVec.ofNat 16 w]
  | .absorbBytes m => absorbWords m
  | .squeezeN n => squeezeWords n
  | .hash L m => hashWords (BitVec.ofNat 8 L) m
  | .sha3_224 m => hashWords 28 m
  | .sha3_256 m => hashWords 32 m
  | .sha3_384 m => hashWords 48 m
  | .sha3_512 m => hashWords 64 m
  | .shake128 m n => xofWords 16 m n
  | .shake256 m n => xofWords 32 m n

/-- Assemble one line; an operand out of range is an assembly error (R68). -/
def assemble (line : AsmLine) : Except AsmError (List CommandWord) :=
  if line.wellFormed then .ok (expand line) else .error .operandOutOfRange

/-- Assemble lines in order; the first error is the result. -/
def assembleAll : List AsmLine → Except AsmError (List CommandWord)
  | [] => .ok []
  | line :: rest =>
    match assemble line with
    | .error e => .error e
    | .ok ws =>
      match assembleAll rest with
      | .error e => .error e
      | .ok more => .ok (ws ++ more)

/-- A pseudo-instruction's result: the concatenation of its commands' response data (R69). -/
def resultData : List Response → List Byte
  | [] => []
  | r :: rest => r.data ++ resultData rest

/-- A pseudo-instruction's status: that of the first command that did not answer OK, or OK (R69). The
same fold says what `ERR` holds after those responses (R28, R169). -/
def resultStatus : List Response → Status
  | [] => .ok
  | r :: rest => if r.status = .ok then resultStatus rest else r.status

/-- White space between tokens. -/
def isBlank (c : Char) : Bool := c = ' ' || c = '\t' || c = '\r'

/-- Put the token read so far (its characters last first) in front of the others. -/
def endToken (cur : List Char) (rest : List (List Char)) : List (List Char) :=
  if cur.isEmpty then rest else cur.reverse :: rest

/-- Split a line into tokens; `;` starts a comment, but a character literal is kept whole
(log entry 6). -/
def tokens : List Char → List Char → List (List Char)
  | [], cur => endToken cur []
  | '\'' :: c :: '\'' :: rest, cur => tokens rest ('\'' :: c :: '\'' :: cur)
  | c :: rest, cur =>
    if c = ';' then endToken cur []
    else if isBlank c then endToken cur (tokens rest [])
    else tokens rest (c :: cur)

/-- The value of a decimal or hexadecimal digit. -/
def digitValue (c : Char) : Option Nat :=
  if '0' ≤ c ∧ c ≤ '9' then some (c.toNat - 48)
  else if 'a' ≤ c ∧ c ≤ 'f' then some (c.toNat - 87)
  else if 'A' ≤ c ∧ c ≤ 'F' then some (c.toNat - 55)
  else none

/-- One more digit of a number in the given base. -/
def addDigit (base : Nat) (acc : Option Nat) (c : Char) : Option Nat :=
  match acc, digitValue c with
  | some a, some d => if d < base then some (base * a + d) else none
  | _, _ => none

/-- Digits, at least one, in the given base. -/
def digits (base : Nat) : List Char → Option Nat
  | [] => none
  | ds => ds.foldl (addDigit base) (some 0)

/-- A decimal or `0x` hexadecimal number (R68). -/
def number : List Char → Option Nat
  | '0' :: 'x' :: ds => digits 16 ds
  | ds => digits 10 ds

/-- The operand of `ABSORB`: a number or a character literal `'c'` (R68). -/
def absorbOperand : List Char → Option AsmLine
  | ['\'', c, '\''] => some (.absorbChar c)
  | ds => (number ds).map .absorb

/-- A mnemonic with no operand (R68). -/
def parsePlain (name : List Char) : Option AsmLine :=
  if name = "FINALIZE".toList then some .finalize
  else if name = "BEGIN_SQUEEZE".toList then some .beginSqueeze
  else if name = "SQUEEZE".toList then some .squeeze
  else none

/-- A mnemonic with one operand (R68), and `SQUEEZE_N n` as program P2 of `95_test_vectors.md` writes it
(log entry 6). -/
def parseOperand (name operand : List Char) : Option AsmLine :=
  if name = "INIT".toList then (number operand).map .init
  else if name = "ABSORB".toList then absorbOperand operand
  else if name = ".word".toList then (number operand).map .word
  else if name = "SQUEEZE_N".toList then (number operand).map .squeezeN
  else none

/-- A line's tokens as a source line: one command a line, the mnemonic first (R68). A line with no token,
blank or a comment alone, holds no command and is no error: R68 does not say so, DESIGN CHOICE, log entry 6.
A line with tokens in none of the forms of R68 is the assembly error `badForm` (log entry 6). -/
def parseTokens : List (List Char) → Except AsmError (Option AsmLine)
  | [] => .ok none
  | [name] =>
    match parsePlain name with
    | some line => .ok (some line)
    | none => .error .badForm
  | [name, operand] =>
    match parseOperand name operand with
    | some line => .ok (some line)
    | none => .error .badForm
  | _ => .error .badForm

/-- Read one line of source text (R68). -/
def parseLine (text : List Char) : Except AsmError (Option AsmLine) := parseTokens (tokens text [])

/-- Assemble one line of source text: the words it stands for (R68), none for a line with no token
(log entry 6). -/
def assembleText (text : List Char) : Except AsmError (List CommandWord) :=
  match parseLine text with
  | .error e => .error e
  | .ok none => .ok []
  | .ok (some line) => assemble line

end Sys2Proof.Machine
end

