-- ==== Sys2Proof/Config.lean ====
section
/-! DEFINITION. What the spec leaves to the implementation and no rule depends on: the two open
parameters of `00_scope.md` R10. They have no body, so nothing can be proved of their values. -/

namespace Sys2Proof

/-- `LATENCY_CMD(op)`: the time a command takes (R10, R196, D16: OPEN). "A model must not depend on
any latency value"; no definition of this model reads it (log entry 5). -/
opaque Config.latencyCmd : Instr → Nat

/-- `N_INSTANCES`: the number of independent cores on a platform (R10, R176, D21: OPEN). Read by
`Machine.Platform.reset` alone (log entry 5). -/
opaque Config.nInstances : Nat

end Sys2Proof
end

