-- ==== Sys2Proof/Machine/Platform.lean ====
section
/-! DEFINITION. Several cores on one platform (`60_exceptions.md` R176): each has its own registers and
state bytes, nothing is shared but the constant tables, and each has one host (R177). -/

namespace Sys2Proof.Machine

/-- The cores of a platform. -/
structure Platform where
  cores : List State
  deriving DecidableEq, Repr

/-- `N_INSTANCES` cores right after reset (R10, R176). -/
def Platform.reset : Platform := ⟨List.replicate Config.nInstances State.reset⟩

/-- Core `j` takes its host's next command; the order in which cores step is the platform's, and no rule
depends on it. -/
def Platform.stepCore (p : Platform) (j : Fin p.cores.length) : Host.Outcome Platform Fault Refusal :=
  match step (p.cores.get j) with
  | .next t => .next ⟨p.cores.set j.val t⟩
  | .fault f => .fault f
  | .refused r => .refused r

end Sys2Proof.Machine
end

