-- ==== Sys2Proof/Safety.lean ====
section
/-! DEFINITION. The terms the statements use: runs, the invariant of the registers, the lifecycle table,
what a failed command leaves, and what the host sees. -/

namespace Sys2Proof.Machine

/-- `n` steps, stopping at the first fault or refusal. -/
def run : Nat → State → Host.Outcome State Fault Refusal
  | 0, s => .next s
  | n + 1, s =>
    match step s with
    | .next t => run n t
    | .fault f => .fault f
    | .refused r => .refused r

/-- The register values that stand between commands (R23, R25, R26): before the first good `INIT` the
context registers are zero; after it `OUTLEN` is a legal length and `RATE = 200 - 2*OUTLEN`, and
`CURSOR` lies in the range its mode gives. -/
abbrev State.Inv (s : State) : Prop :=
  (s.mode = .idle → s.outlen = 0 ∧ s.rate = 0 ∧ s.cursor = 0) ∧
  (s.mode ≠ .idle → legalLength s.outlen = true ∧ s.rate = rateOf s.outlen) ∧
  (s.mode = .absorbing ∨ s.mode = .fixedSqueezed → s.cursor < s.rate) ∧
  (s.mode = .xofSqueezing → s.cursor ≤ s.rate)

/-- The state a command that fails with code `E` leaves (R165): `ERR` records the first failure, the
response is `(E, empty)`, and every other field keeps its value. -/
def afterFailure (E : Status) (s : State) : State :=
  { s with err := if s.err = .ok then E else s.err, responses := s.responses ++ [⟨E, []⟩] }

/-- The status the lifecycle table gives a command in a mode (R110, with R111's length check). -/
def tableStatus : Mode → Instr → Status
  | _, .init L => if legalLength L then .ok else .invalidParameter
  | .absorbing, .absorb _ => .ok
  | .absorbing, .finalize => .ok
  | .absorbing, .beginSqueeze => .ok
  | .xofSqueezing, .squeeze => .ok
  | _, _ => .invalidState

/-- The mode a command that answers OK leaves (R110). -/
def tableMode : Instr → Mode
  | .init _ => .absorbing
  | .absorb _ => .absorbing
  | .finalize => .fixedSqueezed
  | .beginSqueeze => .xofSqueezing
  | .squeeze => .xofSqueezing

/-- How many data bytes a command that answers OK emits (R67). -/
def tableDataLength (outlen : Byte) : Instr → Nat
  | .init _ => 0
  | .absorb _ => 0
  | .finalize => outlen.toNat
  | .beginSqueeze => 0
  | .squeeze => 1

/-- What the host can observe of a core: `STATUS` and the responses (R21, R30, R175). -/
def hostView (s : State) : BitVec 4 × List Response := (statusOutput s, s.responses)

/-- Two states that differ at most in a state array no command has set up yet: the arrays agree unless
the mode is IDLE (R37). -/
def AgreeUntilInit (s t : State) : Prop :=
  t = { s with lanes := t.lanes } ∧ (s.mode ≠ .idle → t.lanes = s.lanes)

end Sys2Proof.Machine
end

