-- ==== Sys2Proof/Certificates/Slice0/Obligations.lean ====
section
/-! DEFINITION. The statements for the provers. Each docstring names the rule it formalises, or the
sections it rests on. -/

section Statements

open Sys2Proof Sys2Proof.Machine

/-! ### Encoding -/

/-- Decoding and encoding agree on every word and every command: a word decodes to a command exactly if
it is that command's word (R61, R63, R65). No bit of an encoding is dropped, and no word outside the
encodings decodes. -/
def Obligations.DecodeInvertsEncodeOnEveryWord : Prop :=
  ∀ (w : CommandWord) (i : Instr), decode w = .ok i ↔ encode i = w

/-- R64: the illegal words, by their fields as numbers, and what an illegal word does in every mode; an
`INIT` word with an illegal length is legal to decode and fails with INVALID_PARAMETER. -/
def Obligations.IllegalWordsAreThoseOfTheRule : Prop :=
  (∀ w : CommandWord, (∃ e, decode w = .error e) ↔
    (w.toNat / 4096 = 0 ∨ 6 ≤ w.toNat / 4096) ∨ w.toNat / 256 % 16 ≠ 0 ∨
      ((w.toNat / 4096 = 3 ∨ w.toNat / 4096 = 4 ∨ w.toNat / 4096 = 5) ∧ w.toNat % 256 ≠ 0)) ∧
  (∀ (s : State) (w : CommandWord) (rest : List CommandWord) (e : IllegalWord),
    s.commands = w :: rest → decode w = .error e →
      step s = .next (afterFailure .illegalCommand { s with commands := rest })) ∧
  (∀ L : Byte, decode (0x1000 ||| L.setWidth 16) = .ok (.init L)) ∧
  (∀ (L : Byte) (s : State), L ∉ [16, 20, 28, 32, 48, 64] →
    exec (.init L) s = .next (afterFailure .invalidParameter s))

/-- R63: the full 16-bit match and mask values of the five commands, their operands, and the rows of the
opcode map that are illegal. -/
def Obligations.OpcodeMapMatchesUnderMask : Prop :=
  (∀ w : CommandWord, (∃ L, decode w = .ok (.init L)) ↔ w &&& 0xFF00 = 0x1000) ∧
  (∀ (w : CommandWord) (L : Byte), decode w = .ok (.init L) → L.toNat = w.toNat % 256) ∧
  (∀ w : CommandWord, (∃ d, decode w = .ok (.absorb d)) ↔ w &&& 0xFF00 = 0x2000) ∧
  (∀ (w : CommandWord) (d : Byte), decode w = .ok (.absorb d) → d.toNat = w.toNat % 256) ∧
  (∀ w : CommandWord, decode w = .ok .finalize ↔ w = 0x3000) ∧
  (∀ w : CommandWord, decode w = .ok .beginSqueeze ↔ w = 0x4000) ∧
  (∀ w : CommandWord, decode w = .ok .squeeze ↔ w = 0x5000) ∧
  (∀ w : CommandWord, w.toNat / 4096 = 0 ∨ 6 ≤ w.toNat / 4096 → ∃ e, decode w = .error e)

/-- A word of each family, written out from R61 and R63, decodes to its command; three words that differ
from one in a single field do not. -/
def Obligations.WrittenWordsDecode : Prop :=
  decode 0b0001000000100000 = .ok (.init 32) ∧
  decode 0b0010000001100001 = .ok (.absorb 0x61) ∧
  decode 0b0011000000000000 = .ok .finalize ∧
  decode 0b0100000000000000 = .ok .beginSqueeze ∧
  decode 0b0101000000000000 = .ok .squeeze ∧
  decode 0b0001000100100000 = .error .reservedBits ∧
  decode 0b0110000000000000 = .error .opcode ∧
  decode 0b0101000000000001 = .error .immediate

/-! ### A step -/

/-- A step takes the host's next word and runs the command it decodes to, at the state without that
word; an illegal word fails; and the word the host places with `withFetchWord` is the one the next step
takes. The list of words is the model's form of the host (log entry 2). -/
def Obligations.StepRunsTheDecodedCommand : Prop :=
  (∀ (s : State) (w : CommandWord) (rest : List CommandWord) (i : Instr),
    s.commands = w :: rest → decode w = .ok i → step s = exec i { s with commands := rest }) ∧
  (∀ (s : State) (w : Nat) (i : Instr), decodeTableWord 16 w = some i →
    step (s.withFetchWord 16 w) = exec i s)

/-- R178: with no command to run the core waits, and loses no state while waiting, however long. That
"no command" is an empty list is the model's form of the host (log entry 2). -/
def Obligations.WaitingCoreLosesNoState : Prop :=
  ∀ (s : State) (n : Nat), s.commands = [] → run n s = .next s

/-! ### The commands -/

/-- R111: `INIT`, its encoding, and its whole effect in every mode. -/
def Obligations.InitStartsAFreshContext : Prop :=
  (∀ L : Byte, decode (0x1000 ||| L.setWidth 16) = .ok (.init L)) ∧
  (∀ (L : Byte) (s : State), L ∈ [16, 20, 28, 32, 48, 64] →
    ∃ Z : Lanes, (∀ k, byteAt Z k = 0) ∧
      exec (.init L) s = .next { s with
        lanes := Z, outlen := L, rate := BitVec.ofNat 8 (200 - 2 * L.toNat), cursor := 0,
        mode := .absorbing, responses := s.responses ++ [⟨.ok, []⟩] }) ∧
  (∀ (L : Byte) (s : State), L ∉ [16, 20, 28, 32, 48, 64] →
    exec (.init L) s = .next (afterFailure .invalidParameter s))

/-- R113: `ABSORB`, its encoding, and its whole effect; the permutation runs in the command that fills the
block, and the 8-bit `CURSOR + 1` does not overflow. The premises on the registers hold in every state a
run reaches (`StepKeepsRegistersLegal`). -/
def Obligations.AbsorbXorsAtTheCursor : Prop :=
  (∀ d : Byte, decode (0x2000 ||| d.setWidth 16) = .ok (.absorb d)) ∧
  (∀ (d : Byte) (s : State), s.mode ≠ .absorbing →
    exec (.absorb d) s = .next (afterFailure .invalidState s)) ∧
  (∀ (d : Byte) (s : State), s.mode = .absorbing → s.cursor.toNat < 200 →
    ∃ B : Lanes,
      (∀ k : Fin 200, byteAt B k = if k.val = s.cursor.toNat then byteAt s.lanes k ^^^ d
        else byteAt s.lanes k) ∧
      exec (.absorb d) s = .next (
        if s.cursor.toNat + 1 = s.rate.toNat then
          { s with lanes := keccakF B, cursor := 0, responses := s.responses ++ [⟨.ok, []⟩] }
        else
          { s with lanes := B, cursor := s.cursor + 1, responses := s.responses ++ [⟨.ok, []⟩] })) ∧
  (∀ s : State, s.Inv → s.mode = .absorbing →
    s.cursor.toNat + 1 ≤ s.rate.toNat ∧ s.rate.toNat ≤ 168)

/-- R130: `FINALIZE`, its encoding, the words with its `OPC` that are illegal, and its whole effect. The
premises on the registers hold in every state a run reaches (`StepKeepsRegistersLegal`). -/
def Obligations.FinalizePadsPermutesAndEmits : Prop :=
  (∀ w : CommandWord, decode w = .ok .finalize ↔ w = 0x3000) ∧
  (∀ (s : State) (w : CommandWord) (rest : List CommandWord), s.commands = w :: rest →
    w.toNat / 4096 = 3 → w ≠ 0x3000 →
    step s = .next (afterFailure .illegalCommand { s with commands := rest })) ∧
  (∀ s : State, s.mode ≠ .absorbing → exec .finalize s = .next (afterFailure .invalidState s)) ∧
  (∀ s : State, s.mode = .absorbing → s.cursor.toNat < 200 → 1 ≤ s.rate.toNat →
    s.rate.toNat ≤ 200 → s.outlen.toNat ≤ 200 →
    ∃ B : Lanes,
      (∀ k : Fin 200, byteAt B k = byteAt s.lanes k ^^^
        (if k.val = s.cursor.toNat then 0x06 else 0) ^^^
        (if k.val + 1 = s.rate.toNat then 0x80 else 0)) ∧
      exec .finalize s = .next { s with
        lanes := keccakF B, mode := .fixedSqueezed,
        responses := s.responses ++ [⟨.ok,
          (List.range s.outlen.toNat).map fun k => byteAt (keccakF B) (Fin.ofNat 200 k)⟩] })

/-- R140: `BEGIN_SQUEEZE`, its encoding, the words with its `OPC` that are illegal, and its whole effect.
The premises on the registers hold in every state a run reaches (`StepKeepsRegistersLegal`). -/
def Obligations.BeginSqueezePadsPermutesAndResetsCursor : Prop :=
  (∀ w : CommandWord, decode w = .ok .beginSqueeze ↔ w = 0x4000) ∧
  (∀ (s : State) (w : CommandWord) (rest : List CommandWord), s.commands = w :: rest →
    w.toNat / 4096 = 4 → w ≠ 0x4000 →
    step s = .next (afterFailure .illegalCommand { s with commands := rest })) ∧
  (∀ s : State, s.mode ≠ .absorbing → exec .beginSqueeze s = .next (afterFailure .invalidState s)) ∧
  (∀ s : State, s.mode = .absorbing → s.cursor.toNat < 200 → 1 ≤ s.rate.toNat →
    s.rate.toNat ≤ 200 →
    ∃ B : Lanes,
      (∀ k : Fin 200, byteAt B k = byteAt s.lanes k ^^^
        (if k.val = s.cursor.toNat then 0x1F else 0) ^^^
        (if k.val + 1 = s.rate.toNat then 0x80 else 0)) ∧
      exec .beginSqueeze s = .next { s with
        lanes := keccakF B, cursor := 0, mode := .xofSqueezing,
        responses := s.responses ++ [⟨.ok, []⟩] })

/-- R141: `SQUEEZE`, its encoding, the words with its `OPC` that are illegal, and its whole effect: within
a block it emits the byte at the cursor; when the block is used up it permutes first and emits the new
byte 0; `CURSOR` never passes `RATE`. -/
def Obligations.SqueezeEmitsOneByte : Prop :=
  (∀ w : CommandWord, decode w = .ok .squeeze ↔ w = 0x5000) ∧
  (∀ (s : State) (w : CommandWord) (rest : List CommandWord), s.commands = w :: rest →
    w.toNat / 4096 = 5 → w ≠ 0x5000 →
    step s = .next (afterFailure .illegalCommand { s with commands := rest })) ∧
  (∀ s : State, s.mode ≠ .xofSqueezing → exec .squeeze s = .next (afterFailure .invalidState s)) ∧
  (∀ (s : State) (h : s.cursor.toNat < 200), s.mode = .xofSqueezing →
    s.cursor.toNat < s.rate.toNat →
    exec .squeeze s = .next { s with
      cursor := s.cursor + 1,
      responses := s.responses ++ [⟨.ok, [byteAt s.lanes ⟨s.cursor.toNat, h⟩]⟩] }) ∧
  (∀ s : State, s.mode = .xofSqueezing → s.rate.toNat ≤ s.cursor.toNat →
    exec .squeeze s = .next { s with
      lanes := keccakF s.lanes, cursor := 1,
      responses := s.responses ++ [⟨.ok, [byteAt (keccakF s.lanes) 0]⟩] }) ∧
  (∀ s : State, s.Inv → s.mode = .xofSqueezing →
    s.cursor.toNat ≤ s.rate.toNat ∧ s.rate.toNat ≤ 168)

/-- R131: when the cursor is at the terminator byte, `FINALIZE` XORs that byte with `0x86` and no other
byte before the permutation. -/
def Obligations.MergedPaddingByteIsXoredWith86 : Prop :=
  ∀ s : State, s.mode = .absorbing → s.cursor.toNat + 1 = s.rate.toNat → s.rate.toNat ≤ 200 →
    s.outlen.toNat ≤ 200 →
    ∃ (B : Lanes) (t : State), exec .finalize s = .next t ∧ t.lanes = keccakF B ∧
      (∀ k : Fin 200, byteAt B k =
        if k.val = s.cursor.toNat then byteAt s.lanes k ^^^ 0x86 else byteAt s.lanes k)

/-- R133: a second `FINALIZE` fails: it emits no bytes and changes no state but `ERR`. The first one, from
a state with legal registers, answers OK with the digest. -/
def Obligations.SecondFinalizeFails : Prop :=
  ∀ (s : State) (rest : List CommandWord), s.Inv → s.mode = .absorbing →
    s.commands = 0x3000 :: 0x3000 :: rest →
    ∃ t : State, step s = .next t ∧
      (∃ data, data.length = s.outlen.toNat ∧ t.responses = s.responses ++ [⟨.ok, data⟩]) ∧
      step t = .next (afterFailure .invalidState { t with commands := rest })

/-- The model's own stop (log entry 4): a command stops with `addressOutsideState` exactly if it would
reach a byte index that R40 says does not exist, or a digest longer than the state; no command stops
otherwise. -/
def Obligations.OnlyAbsentBytesStopACommand : Prop :=
  ∀ (i : Instr) (s : State),
    (∃ t, exec i s = .next t) ↔
      match i with
      | .init _ => True
      | .absorb _ => s.mode = .absorbing → s.cursor.toNat < 200
      | .finalize => s.mode = .absorbing →
          s.cursor.toNat < 200 ∧ 1 ≤ s.rate.toNat ∧ s.rate.toNat ≤ 200 ∧ s.outlen.toNat ≤ 200
      | .beginSqueeze => s.mode = .absorbing →
          s.cursor.toNat < 200 ∧ 1 ≤ s.rate.toNat ∧ s.rate.toNat ≤ 200
      | .squeeze => s.mode = .xofSqueezing → s.rate.toNat ≤ s.cursor.toNat ∨ s.cursor.toNat < 200

/-! ### What a command leaves unchanged -/

/-- The frame of the commands, byte by byte and register by register. `ABSORB` short of the block's end
changes no byte but the one at the cursor; `SQUEEZE` within a block changes no byte; a command that does
not answer OK changes no byte; a command that answers OK leaves `ERR`; only `INIT` changes `OUTLEN` and
`RATE`; `FINALIZE` leaves `CURSOR`; `ABSORB` and `SQUEEZE` leave `MODE`; no command touches the words the
host has still to issue or an earlier response. -/
def Obligations.CommandFrames : Prop :=
  (∀ (d : Byte) (s t : State), exec (.absorb d) s = .next t →
    s.cursor.toNat + 1 ≠ s.rate.toNat → ∀ k : Fin 200, k.val ≠ s.cursor.toNat →
      byteAt t.lanes k = byteAt s.lanes k) ∧
  (∀ s t : State, exec .squeeze s = .next t → s.cursor.toNat < s.rate.toNat →
    ∀ k : Fin 200, byteAt t.lanes k = byteAt s.lanes k) ∧
  (∀ (i : Instr) (s t : State), exec i s = .next t →
    t.commands = s.commands ∧
    (∃ r, t.responses = s.responses ++ [r] ∧
      (r.status = .ok → t.err = s.err) ∧
      (r.status ≠ .ok → (∀ k : Fin 200, byteAt t.lanes k = byteAt s.lanes k) ∧
        t.mode = s.mode ∧ t.outlen = s.outlen ∧ t.rate = s.rate ∧ t.cursor = s.cursor)) ∧
    ((∀ L, i ≠ .init L) → t.outlen = s.outlen ∧ t.rate = s.rate) ∧
    (i = .finalize → t.cursor = s.cursor) ∧
    (((∃ d, i = .absorb d) ∨ i = .squeeze) → t.mode = s.mode))

/-- R35: the capacity bytes `S[RATE]` … `S[199]` are changed by `INIT` and the permutation alone: every
other command writes at most bytes below `RATE` before any permutation, runs at most one, and emits only
bytes below `RATE`. -/
def Obligations.CapacityIsNeverWrittenDirectly : Prop :=
  ∀ (i : Instr) (s t : State), s.Inv → (∀ L, i ≠ .init L) → exec i s = .next t →
    ∃ B : Lanes, (∀ k : Fin 200, s.rate.toNat ≤ k.val → byteAt B k = byteAt s.lanes k) ∧
      (t.lanes = B ∨ t.lanes = keccakF B) ∧
      (∀ r, t.responses = s.responses ++ [r] → ∃ ks : List (Fin 200),
        (∀ k ∈ ks, k.val < s.rate.toNat) ∧ r.data = ks.map (byteAt t.lanes))

/-! ### Failures and responses -/

/-- R110 and R162: the lifecycle table. From legal registers every command completes with the status the
table gives for the mode, and leaves the mode the table gives, or the old mode if it fails. -/
def Obligations.LifecycleTableHolds : Prop :=
  (∀ (s : State) (i : Instr), s.Inv →
    ∃ (t : State) (data : List Byte), exec i s = .next t ∧
      t.responses = s.responses ++ [⟨tableStatus s.mode i, data⟩] ∧
      t.mode = if tableStatus s.mode i = .ok then tableMode i else s.mode) ∧
  (∀ (s : State) (w : CommandWord) (rest : List CommandWord) (e : IllegalWord),
    s.commands = w :: rest → decode w = .error e →
    ∃ t : State, step s = .next t ∧ t.responses = s.responses ++ [⟨.illegalCommand, []⟩] ∧
      t.mode = s.mode)

/-- R165: a command that fails with `E` answers `(E, empty)`, `ERR` takes `E` if it was OK, and `S`,
`OUTLEN`, `RATE`, `CURSOR` and `MODE` keep their values. -/
def Obligations.FailureChangesOnlyErr : Prop :=
  ∀ (s t : State) (w : CommandWord) (rest : List CommandWord) (r : Response),
    s.commands = w :: rest → step s = .next t → t.responses = s.responses ++ [r] → r.status ≠ .ok →
    t = afterFailure r.status { s with commands := rest }

/-- R161, R162, R163 and R166: what raises each status, with ILLEGAL_COMMAND before the other two. -/
def Obligations.EachStatusHasItsCause : Prop :=
  ∀ (s t : State) (w : CommandWord) (rest : List CommandWord) (r : Response),
    s.commands = w :: rest → step s = .next t → t.responses = s.responses ++ [r] →
    (r.status = .illegalCommand ↔ ∃ e, decode w = .error e) ∧
    (r.status = .invalidParameter ↔
      ∃ L : Byte, decode w = .ok (.init L) ∧ L ∉ [16, 20, 28, 32, 48, 64]) ∧
    (r.status = .invalidState ↔
      (((∃ d, decode w = .ok (.absorb d)) ∨ decode w = .ok .finalize ∨
        decode w = .ok .beginSqueeze) ∧ s.mode ≠ .absorbing) ∨
      (decode w = .ok .squeeze ∧ s.mode ≠ .xofSqueezing))

/-- R67: the status codes, and one response per command with the data length the table gives. -/
def Obligations.EveryCommandIsAnsweredOnce : Prop :=
  (statusCode .ok = 0 ∧ statusCode .invalidParameter = 1 ∧ statusCode .invalidState = 2 ∧
    statusCode .illegalCommand = 3) ∧
  (∀ (s t : State) (w : CommandWord) (rest : List CommandWord),
    s.commands = w :: rest → step s = .next t →
    ∃ r : Response, t.responses = s.responses ++ [r] ∧ t.commands = rest ∧
      r.data.length =
        match decode w with
        | .ok i => if r.status = .ok then tableDataLength s.outlen i else 0
        | .error _ => 0)

/-- R28: `ERR` holds the status of the first command that failed since reset, or OK: kept by every step,
and cleared by reset alone (the list of responses is the model's record of them, log entry 3). -/
def Obligations.ErrHoldsTheFirstFailure : Prop :=
  (State.reset.err = resultStatus State.reset.responses) ∧
  (∀ s t : State, s.err = resultStatus s.responses → step s = .next t →
    t.err = resultStatus t.responses) ∧
  (∀ s t : State, s.err ≠ .ok → step s = .next t → t.err = s.err) ∧
  (∀ s : State, (resetCore s).err = .ok ∧ (resetCore s).err = resultStatus (resetCore s).responses)

/-- R169: from reset, `ERR = OK` after a sequence of commands if and only if every command in it answered
OK. -/
def Obligations.ErrIsOkIffEveryCommandWasOk : Prop :=
  ∀ (ws : List CommandWord) (n : Nat) (t : State),
    run n { State.reset with commands := ws } = .next t →
    (t.err = .ok ↔ ∀ r ∈ t.responses, r.status = .ok)

/-! ### Reset and the invariants -/

/-- R38: the registers after reset, whether the core starts there or the reset input comes later, and that
no output byte is pending. -/
def Obligations.ResetValuesOfTheRegisters : Prop :=
  State.reset.mode = .idle ∧ State.reset.err = .ok ∧ State.reset.outlen = 0 ∧
  State.reset.rate = 0 ∧ State.reset.cursor = 0 ∧ State.reset.responses = [] ∧
  statusOutput State.reset = 0 ∧
  (∀ s : State, (resetCore s).mode = .idle ∧ (resetCore s).err = .ok ∧ (resetCore s).outlen = 0 ∧
    (resetCore s).rate = 0 ∧ (resetCore s).cursor = 0 ∧ (resetCore s).responses = [])

/-- The registers are legal at reset (the invariant of R23, R25 and R26). -/
def Obligations.RegistersLegalAtReset : Prop := State.reset.Inv

/-- R26: the range of `CURSOR` in each mode, with the values of `OUTLEN` and `RATE` that R23 and R25 give,
is kept by every step from every state that has it. -/
def Obligations.StepKeepsRegistersLegal : Prop :=
  ∀ s t : State, s.Inv → step s = .next t → t.Inv

/-- From legal registers every step answers: no fault and no refusal (R42, R164). -/
def Obligations.LegalRegistersNeverStop : Prop :=
  ∀ s : State, s.Inv → ∃ t, step s = .next t

/-- R25: after a successful `INIT`, `RATE` is `200 - 2*OUTLEN`; only `INIT` writes it. -/
def Obligations.OnlyInitWritesRate : Prop :=
  (∀ (L : Byte) (s t : State), exec (.init L) s = .next t →
    t.responses = s.responses ++ [⟨.ok, []⟩] →
    t.outlen = L ∧ t.rate.toNat = 200 - 2 * t.outlen.toNat) ∧
  (∀ (s t : State), step s = .next t → t.rate ≠ s.rate →
    ∃ (L : Byte) (rest : List CommandWord),
      s.commands = encode (.init L) :: rest ∧ t.outlen = L ∧ t.mode = .absorbing)

/-- Contexts are single-use: out of a finalized or squeezing context only a successful `INIT` leads back
to ABSORBING, and it starts from the zero state (`41_sponge_state_machine.md` R110, R115). -/
def Obligations.OnlyInitReturnsToAbsorbing : Prop :=
  ∀ s t : State, (s.mode = .fixedSqueezed ∨ s.mode = .xofSqueezing) → step s = .next t →
    t.mode = .absorbing →
    ∃ (L : Byte) (rest : List CommandWord), s.commands = encode (.init L) :: rest ∧
      legalLength L = true ∧ (∀ k, byteAt t.lanes k = 0) ∧ t.cursor = 0

/-- R30: the layout of the status output, with the 2-bit values of `MODE` and `ERR` that R23 gives. -/
def Obligations.StatusOutputLayout : Prop :=
  (∀ s : State,
    (statusOutput s).extractLsb' 0 2 = modeCode s.mode ∧
    (statusOutput s).extractLsb' 2 2 = statusCode s.err) ∧
  (modeCode .idle = 0 ∧ modeCode .absorbing = 1 ∧ modeCode .fixedSqueezed = 2 ∧
    modeCode .xofSqueezing = 3) ∧
  (statusCode .ok = 0 ∧ statusCode .invalidParameter = 1 ∧ statusCode .invalidState = 2 ∧
    statusCode .illegalCommand = 3)

/-- The legal lengths satisfy the source's range condition on the rate, the digest fits the rate part, and
no length outside the range condition is accepted (`41_sponge_state_machine.md` R112, `10_state.md`
R36). -/
def Obligations.LegalLengthsFitTheRate : Prop :=
  (∀ L : Byte, legalLength L = true →
    0 < (rateOf L).toNat ∧ (rateOf L).toNat < 200 ∧ (rateOf L).toNat = 200 - 2 * L.toNat ∧
    L.toNat ≤ (rateOf L).toNat) ∧
  (∀ L : Byte, (L = 0 ∨ 100 ≤ L.toNat) → legalLength L = false)

/-! ### The state array and the permutation -/

/-- R46: the byte view and the lane view are inverse to each other. -/
def Obligations.ByteAndLaneViewsRoundTrip : Prop :=
  (∀ S : Vector Byte 200, lanesToBytes (bytesToLanes S) = S) ∧
  (∀ A : Lanes, bytesToLanes (lanesToBytes A) = A)

/-- R43: lane packing is little-endian: lane `i` is its eight bytes, byte `8i` least significant. -/
def Obligations.LanePackingIsLittleEndian : Prop :=
  ∀ (A : Lanes) (i : Fin 25),
    A.get i =
      byteAt A (Fin.ofNat 200 (8 * i.val + 7)) ++ byteAt A (Fin.ofNat 200 (8 * i.val + 6)) ++
      byteAt A (Fin.ofNat 200 (8 * i.val + 5)) ++ byteAt A (Fin.ofNat 200 (8 * i.val + 4)) ++
      byteAt A (Fin.ofNat 200 (8 * i.val + 3)) ++ byteAt A (Fin.ofNat 200 (8 * i.val + 2)) ++
      byteAt A (Fin.ofNat 200 (8 * i.val + 1)) ++ byteAt A (Fin.ofNat 200 (8 * i.val))

/-- R82, R87 and R88: theta, chi and iota lane by lane, at column `x` and row `y`; `C` is the column parity
of the input. -/
def Obligations.ThetaChiIotaLaneByLane : Prop :=
  (∀ (A : Lanes) (C : Fin 5 → Lane),
    (∀ x : Fin 5, C x = A.get (Fin.ofNat 25 x.val) ^^^ A.get (Fin.ofNat 25 (x.val + 5)) ^^^
      A.get (Fin.ofNat 25 (x.val + 10)) ^^^ A.get (Fin.ofNat 25 (x.val + 15)) ^^^
      A.get (Fin.ofNat 25 (x.val + 20))) →
    ∀ x y : Fin 5, (theta A).get (Fin.ofNat 25 (x.val + 5 * y.val)) =
      A.get (Fin.ofNat 25 (x.val + 5 * y.val)) ^^^ (C (x + 4) ^^^ (C (x + 1)).rotateLeft 1)) ∧
  (∀ (A : Lanes) (x y : Fin 5),
    (chi A).get (Fin.ofNat 25 (5 * y.val + x.val)) =
      A.get (Fin.ofNat 25 (5 * y.val + x.val)) ^^^
        (~~~(A.get (Fin.ofNat 25 (5 * y.val + (x + 1).val))) &&&
          A.get (Fin.ofNat 25 (5 * y.val + (x + 2).val)))) ∧
  (∀ (A : Lanes) (r : Fin 24) (i : Fin 25),
    (iota r A).get i = if i = 0 then A.get i ^^^ roundConstant r else A.get i)

/-- The fused rho/pi loop moves lanes as the unrolled move table says: iteration `i` reads the lane
visited before it (lane 1 first) and writes it rotated into lane `PILN[i]`; lane 0 stands
(`40_keccak_f_1600_permutation.md` R83, R91). -/
def Obligations.RhoPiFollowsTheMoveTable : Prop :=
  ∀ A : Lanes,
    (rhoPi A).get 0 = A.get 0 ∧
    (rhoPi A).get 10 = (A.get 1).rotateLeft 1 ∧
    ∀ i : Fin 23, (rhoPi A).get (laneTable.get i.succ) =
      (A.get (laneTable.get i.castSucc)).rotateLeft (rotationTable.get i.succ)

/-- The constant tables: rotation amounts in `[1, 63]` and equal to `((i+1)(i+2)/2) mod 64`; each of the
lanes `1..24` once in the lane table, lane 10 first, each the pi image of the one before; round constants
with bits at 0, 1, 3, 7, 15, 31 and 63 alone, and with the values of R84, row by row. The values are the
spec's supplement from general knowledge (log entry 7) (`40_keccak_f_1600_permutation.md` R84, R85, R86). -/
def Obligations.ConstantTablesHaveTheirShape : Prop :=
  (∀ i : Fin 24, 1 ≤ rotationTable.get i ∧ rotationTable.get i ≤ 63 ∧
    rotationTable.get i = (i.val + 1) * (i.val + 2) / 2 % 64) ∧
  (∀ j : Fin 25, j ≠ 0 → laneTable.toList.count j = 1) ∧
  (laneTable.get 0).val = 10 ∧
  (∀ i : Fin 23, (laneTable.get i.succ).val =
    (laneTable.get i.castSucc).val / 5 +
      5 * ((2 * ((laneTable.get i.castSucc).val % 5) + 3 * ((laneTable.get i.castSucc).val / 5)) % 5)) ∧
  (∀ r : Fin 24, roundConstant r &&& ~~~(0x800000008000808B : Lane) = 0) ∧
  (roundConstant 0 = 0x0000000000000001 ∧ roundConstant 12 = 0x000000008000808B) ∧
  (roundConstant 1 = 0x0000000000008082 ∧ roundConstant 13 = 0x800000000000008B) ∧
  (roundConstant 2 = 0x800000000000808A ∧ roundConstant 14 = 0x8000000000008089) ∧
  (roundConstant 3 = 0x8000000080008000 ∧ roundConstant 15 = 0x8000000000008003) ∧
  (roundConstant 4 = 0x000000000000808B ∧ roundConstant 16 = 0x8000000000008002) ∧
  (roundConstant 5 = 0x0000000080000001 ∧ roundConstant 17 = 0x8000000000000080) ∧
  (roundConstant 6 = 0x8000000080008081 ∧ roundConstant 18 = 0x000000000000800A) ∧
  (roundConstant 7 = 0x8000000000008009 ∧ roundConstant 19 = 0x800000008000000A) ∧
  (roundConstant 8 = 0x000000000000008A ∧ roundConstant 20 = 0x8000000080008081) ∧
  (roundConstant 9 = 0x0000000000000088 ∧ roundConstant 21 = 0x8000000000008080) ∧
  (roundConstant 10 = 0x0000000080008009 ∧ roundConstant 22 = 0x0000000080000001) ∧
  (roundConstant 11 = 0x000000008000000A ∧ roundConstant 23 = 0x8000000080008008)

/-- The permutation is one: no two state arrays go to one, and every state array is reached
(`40_keccak_f_1600_permutation.md` R97). -/
def Obligations.KeccakFIsABijection : Prop := Function.Bijective keccakF

/-! ### Sequences of commands -/

/-- R53: commands run one at a time in the order issued, each seeing no effect of a command after it: the
state after `ws ++ more` is that of `more` run after `ws`. -/
def Obligations.CommandsComposeInOrder : Prop :=
  ∀ (s t : State) (ws more : List CommandWord),
    run ws.length { s with commands := ws } = .next t →
    run ws.length { s with commands := ws ++ more } = .next { t with commands := more } ∧
    run (ws.length + more.length) { s with commands := ws ++ more } =
      run more.length { t with commands := more }

/-- Every command is answered, in order, one response each, whatever the commands are, from legal
registers: as many steps as there are words add the responses `rs`, and `rs[k]` is the one that the step
taking word `k` adds (`20_memory.md` R54, R55, `70_reset_and_hazards.md` R196). -/
def Obligations.EveryIssuedCommandIsAnswered : Prop :=
  ∀ s : State, s.Inv → ∃ (t : State) (rs : List Response),
    run s.commands.length s = .next t ∧ t.commands = [] ∧ t.responses = s.responses ++ rs ∧
      rs.length = s.commands.length ∧
      ∀ (k : Nat) (w : CommandWord), s.commands[k]? = some w →
        ∃ (u v : State) (rest : List CommandWord) (r : Response), rs[k]? = some r ∧
          run k s = .next u ∧ u.commands = w :: rest ∧ u.responses = s.responses ++ rs.take k ∧
          step u = .next v ∧ v.responses = u.responses ++ [r]

/-- R50: a command is a function of the core's registers and the command word: what the host has still to
issue and what the core has answered before do not influence it. -/
def Obligations.CommandsAreFunctionsOfCoreAndWord : Prop :=
  ∀ (i : Instr) (s t : State) (cs : List CommandWord) (rs : List Response), exec i s = .next t →
    ∃ r : Response, t.responses = s.responses ++ [r] ∧
      exec i { s with commands := cs, responses := rs } =
        .next { t with commands := cs, responses := rs ++ [r] }

/-- The state array at reset is unobservable: whatever it holds, every command sequence gives the same
status output and the same responses at every point (`10_state.md` R37). This holds for every array, so
it does not rest on the zero of log entry 1. -/
def Obligations.ResetStateArrayIsUnobservable : Prop :=
  ∀ (A : Lanes) (ws : List CommandWord) (n : Nat) (t : State),
    run n { State.reset with commands := ws } = .next t →
    ∃ u : State, run n { State.reset with lanes := A, commands := ws } = .next u ∧
      hostView u = hostView t

/-- After `INIT L` and the bytes of `m`, the state array is that of the block-wise sponge: the complete
blocks absorbed, one permutation each, the rest XORed in from byte 0, and `CURSOR` is the length mod
`RATE` (`41_sponge_state_machine.md` R117, R118). -/
def Obligations.AbsorbingIsTheBlockwiseSponge : Prop :=
  ∀ (s : State) (L : Byte) (m : List Byte) (rest : List CommandWord), legalLength L = true →
    s.commands = encode (.init L) :: absorbWords m ++ rest →
    ∃ t : State, run (m.length + 1) s = .next t ∧ t.commands = rest ∧ t.mode = .absorbing ∧
      t.outlen = L ∧ t.rate = rateOf L ∧ t.err = s.err ∧
      t.cursor.toNat = m.length % (rateOf L).toNat ∧
      t.lanes = Reference.xorBlock
        (Reference.absorbBlocks (rateOf L).toNat m (m.length / (rateOf L).toNat))
        (m.drop (m.length / (rateOf L).toNat * (rateOf L).toNat)) ∧
      t.responses = s.responses ++ List.replicate (m.length + 1) ⟨.ok, []⟩

/-- `HASH L, m`, in any mode, answers the first `L` bytes of the block-wise sponge of the message padded
with the SHA-3 suffix, and leaves FIXED_SQUEEZED (`41_sponge_state_machine.md` R116, R118;
`42_sha3_mode_finalizer.md` R130, R131). -/
def Obligations.HashIsTheSpongeOfThePaddedMessage : Prop :=
  ∀ (s : State) (L : Byte) (m : List Byte) (rest : List CommandWord), legalLength L = true →
    s.commands = hashWords L m ++ rest →
    ∃ t : State, run (m.length + 2) s = .next t ∧ t.commands = rest ∧ t.mode = .fixedSqueezed ∧
      t.err = s.err ∧
      t.responses = s.responses ++ List.replicate (m.length + 1) ⟨.ok, []⟩ ++ [⟨.ok,
        (List.range L.toNat).map fun k =>
          byteAt (Reference.spongeState (rateOf L).toNat 0x06 m) (Fin.ofNat 200 k)⟩]

/-- `INIT L`, `ABSORB_BYTES m`, `BEGIN_SQUEEZE`, `SQUEEZE_N n`, in any mode, answer the first `n` bytes of
the output stream of the block-wise sponge padded with the SHAKE suffix
(`43_shake_xof_absorber.md` R140, R141, R144). -/
def Obligations.ShakeIsTheStreamOfThePaddedMessage : Prop :=
  ∀ (s : State) (L : Byte) (m : List Byte) (n : Nat) (rest : List CommandWord),
    legalLength L = true → s.commands = xofWords L m n ++ rest →
    ∃ t : State, run (m.length + 2 + n) s = .next t ∧ t.commands = rest ∧ t.mode = .xofSqueezing ∧
      t.err = s.err ∧
      t.responses = s.responses ++ List.replicate (m.length + 2) ⟨.ok, []⟩ ++
        (List.range n).map fun q => ⟨.ok, [Reference.streamByte (rateOf L).toNat
          (Reference.spongeState (rateOf L).toNat 0x1F m) q]⟩

/-- The output stream from any squeezing state at the start of a block: command `q` emits byte
`q mod RATE` after `floor(q / RATE)` more permutations, and the permutation stays deferred
(`43_shake_xof_absorber.md` R144, `10_state.md` R34). -/
def Obligations.SqueezeStreamFollowsTheBlocks : Prop :=
  ∀ (s : State) (n : Nat), s.Inv → s.mode = .xofSqueezing → s.cursor = 0 →
    s.commands = squeezeWords n →
    ∃ t : State, run n s = .next t ∧
      t.responses = s.responses ++ (List.range n).map (fun q =>
        ⟨.ok, [Reference.streamByte s.rate.toNat s.lanes q]⟩) ∧
      t.lanes = Reference.permuteTimes ((n - 1) / s.rate.toNat) s.lanes ∧
      (0 < n → t.cursor.toNat = (n - 1) % s.rate.toNat + 1)

/-- Prefix consistency: from any squeezing state with legal registers, the bytes of `SQUEEZE_N n1`
followed by `SQUEEZE_N n2` are those of `SQUEEZE_N (n1 + n2)` (`43_shake_xof_absorber.md` R143). The list
of responses is emptied before each pseudo-instruction, so that it holds that one's responses alone; no
command reads it (log entry 3). -/
def Obligations.SqueezingIsPrefixConsistent : Prop :=
  ∀ (s : State) (n1 n2 : Nat), s.Inv → s.mode = .xofSqueezing →
    ∃ t1 t2 u : State,
      run n1 { s with commands := squeezeWords n1, responses := [] } = .next t1 ∧
      run n2 { t1 with commands := squeezeWords n2, responses := [] } = .next t2 ∧
      run (n1 + n2) { s with commands := squeezeWords (n1 + n2), responses := [] } = .next u ∧
      resultData u.responses = resultData t1.responses ++ resultData t2.responses ∧
      (resultData u.responses).length = n1 + n2

/-! ### The assembler and the platform -/

/-- The words of the assembler's own forms, and the operands that are assembly errors
(`30_encoding.md` R68). -/
def Obligations.AssemblerFormsAndOperandRanges : Prop :=
  (∀ L : Nat, L ≤ 255 → assemble (.init L) = .ok [BitVec.ofNat 16 (0x1000 + L)]) ∧
  (∀ b : Nat, b ≤ 255 → assemble (.absorb b) = .ok [BitVec.ofNat 16 (0x2000 + b)]) ∧
  (∀ c : Char, c.toNat ≤ 127 → assemble (.absorbChar c) = .ok [BitVec.ofNat 16 (0x2000 + c.toNat)]) ∧
  assemble .finalize = .ok [0x3000] ∧ assemble .beginSqueeze = .ok [0x4000] ∧
  assemble .squeeze = .ok [0x5000] ∧
  (∀ w : Nat, w ≤ 0xFFFF → assemble (.word w) = .ok [BitVec.ofNat 16 w]) ∧
  (∀ n : Nat, 255 < n → assemble (.init n) = .error .operandOutOfRange ∧
    assemble (.absorb n) = .error .operandOutOfRange) ∧
  (∀ w : Nat, 0xFFFF < w → assemble (.word w) = .error .operandOutOfRange)

/-- R69: each pseudo-instruction is its fixed sequence of commands, and its result and status are those of
the commands' responses. -/
def Obligations.PseudoInstructionsExpand : Prop :=
  (∀ m : List Byte, assemble (.absorbBytes m) =
    assembleAll (m.map fun b => .absorb b.toNat)) ∧
  (∀ n : Nat, assemble (.squeezeN n) = assembleAll (List.replicate n .squeeze)) ∧
  (∀ (L : Nat) (m : List Byte), assemble (.hash L m) =
    assembleAll [.init L, .absorbBytes m, .finalize]) ∧
  (∀ m : List Byte, assemble (.sha3_224 m) = assemble (.hash 28 m) ∧
    assemble (.sha3_256 m) = assemble (.hash 32 m) ∧
    assemble (.sha3_384 m) = assemble (.hash 48 m) ∧
    assemble (.sha3_512 m) = assemble (.hash 64 m)) ∧
  (∀ (m : List Byte) (n : Nat),
    assemble (.shake128 m n) = assembleAll [.init 16, .absorbBytes m, .beginSqueeze, .squeezeN n] ∧
    assemble (.shake256 m n) = assembleAll [.init 32, .absorbBytes m, .beginSqueeze, .squeezeN n]) ∧
  (∀ rs : List Response, resultData rs = (rs.map Response.data).flatten) ∧
  (∀ rs : List Response, resultStatus rs =
    match rs.find? (fun r => decide (r.status ≠ .ok)) with
    | some r => r.status
    | none => .ok)

/-- Chunking: any split of a message, or of an output length, into parts is the same commands
(`30_encoding.md` R70). -/
def Obligations.ChunkingGivesTheSameCommands : Prop :=
  (∀ chunks : List (List Byte),
    assembleAll (chunks.map .absorbBytes) = assemble (.absorbBytes chunks.flatten)) ∧
  (∀ ns : List Nat, assembleAll (ns.map .squeezeN) = assemble (.squeezeN ns.sum))

/-- R176: a command to one core changes no other core, and depends on that core alone; each core starts at
reset. -/
def Obligations.CoresAreIndependent : Prop :=
  (∀ (p q : Platform) (j : Fin p.cores.length), p.stepCore j = .next q →
    q.cores.length = p.cores.length ∧
    (∃ t, step (p.cores.get j) = .next t ∧ q.cores[j.val]? = some t) ∧
    (∀ k : Nat, k ≠ j.val → q.cores[k]? = p.cores[k]?)) ∧
  (∀ s ∈ Platform.reset.cores, s = State.reset) ∧
  Platform.reset.cores.length = Config.nInstances

/-! ### The host's words over a reset, and the hidden state array -/

/-- The model's choice (log entry 2): the host has no word to issue at the start, and the reset input
leaves it the words it has. -/
def Obligations.ResetLeavesTheHostItsWords : Prop :=
  State.reset.commands = [] ∧ ∀ s : State, (resetCore s).commands = s.commands

/-- Two states that differ at most in the array of an IDLE core cannot be told apart, and every step keeps
it so: if one steps, so does the other, to two such states with one status output and one list of responses
(`10_state.md` R37). This holds for every two arrays, so it does not rest on the zero of log entry 1. -/
def Obligations.StepKeepsTheStateArrayHidden : Prop :=
  ∀ s t s' : State, AgreeUntilInit s t → step s = .next s' →
    ∃ t' : State, step t = .next t' ∧ AgreeUntilInit s' t' ∧ hostView t' = hostView s'

end Statements
end

