-- ==== Sys2Proof/Laws/Bytes.lean ====
section
/-! SUPPORT. The byte view of the state array: what a byte read gives after a byte write
(`00_scope.md` R13, `20_memory.md` R45). -/

namespace Sys2Proof.Machine

/-- Two indices in one lane differ in the byte within it. -/
theorem bitOf_ne {j k : Fin 200} (hl : laneOf j = laneOf k) (h : j ≠ k) :
    bitOf j + 8 ≤ bitOf k ∨ bitOf k + 8 ≤ bitOf j := by
  have hl' : j.val / 8 = k.val / 8 := congrArg Fin.val hl
  have : j.val ≠ k.val := fun e => h (Fin.ext e)
  unfold bitOf; omega

theorem bitOf_le (k : Fin 200) : bitOf k + 8 ≤ 64 := by unfold bitOf; omega

theorem getLsbD_byteMask (n i : Nat) (hi : i < 64) :
    ((0xFF : Lane) <<< n).getLsbD i = decide (n ≤ i ∧ i < n + 8) := by
  have h : (0xFF : Lane) = (BitVec.allOnes 8).setWidth 64 := by decide
  rw [h]
  simp only [BitVec.getLsbD_shiftLeft, BitVec.getLsbD_setWidth, BitVec.getLsbD_allOnes, hi,
    decide_true, Bool.true_and]
  by_cases h1 : n ≤ i <;> by_cases h2 : i < n + 8 <;> simp [h1, h2] <;> omega

theorem getLsbD_replaceByte (x : Lane) (n : Nat) (b : Byte) (i : Nat) (hi : i < 64) :
    (replaceByte x n b).getLsbD i =
      if n ≤ i ∧ i < n + 8 then b.getLsbD (i - n) else x.getLsbD i := by
  unfold replaceByte
  simp only [BitVec.getLsbD_or, BitVec.getLsbD_and, BitVec.getLsbD_not, getLsbD_byteMask n i hi,
    BitVec.getLsbD_shiftLeft, BitVec.getLsbD_setWidth, hi, decide_true, Bool.true_and]
  by_cases h1 : n ≤ i
  · by_cases h2 : i < n + 8
    · have : i - n < 64 := by omega
      simp [h1, h2, Nat.not_lt.mpr h1, this]
    · have : 8 ≤ i - n := by omega
      simp [h1, h2, BitVec.getLsbD_of_ge b (i - n) this]
  · simp [h1, Nat.lt_of_not_le h1]

theorem getLsbD_byteAt (A : Lanes) (k : Fin 200) (i : Nat) (hi : i < 8) :
    (byteAt A k).getLsbD i = (A.get (laneOf k)).getLsbD (bitOf k + i) := by
  simp [byteAt, hi]

theorem vector_get_set {α : Type} {n : Nat} (A : Vector α n) (i j : Fin n) (x : α) :
    (A.set i.val x).get j = if j = i then x else A.get j := by
  simp only [Vector.get_eq_getElem, Vector.getElem_set, Fin.ext_iff]
  by_cases h : i.val = j.val <;> simp [h, eq_comm]

/-- Reading a byte after writing one (R13). -/
theorem byteAt_setByte (A : Lanes) (j k : Fin 200) (b : Byte) :
    byteAt (setByte A k b) j = if j = k then b else byteAt A j := by
  apply BitVec.eq_of_getLsbD_eq
  intro i hi
  rw [getLsbD_byteAt _ _ _ hi, setByte, vector_get_set]
  by_cases hjk : j = k
  · subst hjk
    rw [if_pos rfl, if_pos rfl, getLsbD_replaceByte _ _ _ _ (by have := bitOf_le j; omega),
      if_pos ⟨by omega, by omega⟩]
    congr 1; omega
  · rw [if_neg hjk, getLsbD_byteAt _ _ _ hi]
    by_cases hl : laneOf j = laneOf k
    · rw [if_pos hl, getLsbD_replaceByte _ _ _ _ (by have := bitOf_le j; omega), if_neg, hl]
      have := bitOf_ne hl hjk
      omega
    · rw [if_neg hl]

theorem byteAt_xorByte (A : Lanes) (j k : Fin 200) (b : Byte) :
    byteAt (xorByte A k b) j = if j = k then byteAt A j ^^^ b else byteAt A j := by
  unfold xorByte
  rw [byteAt_setByte]
  by_cases h : j = k
  · subst h; simp
  · simp [h]

/-- A state array is its 200 bytes (R13: the two views always agree). -/
theorem lanes_ext_of_bytes {A B : Lanes} (h : ∀ k, byteAt A k = byteAt B k) : A = B := by
  apply Vector.ext
  intro i hi
  apply BitVec.eq_of_getLsbD_eq
  intro n hn
  have hk : 8 * i + n / 8 < 200 := by omega
  have := congrArg (fun b => b.getLsbD (n % 8)) (h ⟨8 * i + n / 8, hk⟩)
  simp only [getLsbD_byteAt _ _ _ (Nat.mod_lt n (by decide : 0 < 8)), Vector.get_eq_getElem,
    laneOf, bitOf] at this
  have e1 : (8 * i + n / 8) / 8 = i := by omega
  have e2 : 8 * ((8 * i + n / 8) % 8) + n % 8 = n := by omega
  simp only [e1, e2] at this
  exact this

/-- What padding does to each byte: both XORs apply, also to one byte (R130, R131). -/
theorem byteAt_padLanes (A : Lanes) (suffix : Byte) (c t k : Fin 200) :
    byteAt (padLanes A suffix c t) k =
      byteAt A k ^^^ (if k = c then suffix else 0) ^^^ (if k = t then 0x80 else 0) := by
  unfold padLanes
  rw [byteAt_xorByte, byteAt_xorByte]
  split <;> split <;> simp

/-- Bit `i` of byte `j` of eight concatenated bytes. -/
theorem getLsbD_concat (b : Fin 8 → Byte) (j : Fin 8) (i : Nat) (hi : i < 8) :
    (b 7 ++ b 6 ++ b 5 ++ b 4 ++ b 3 ++ b 2 ++ b 1 ++ b 0 : BitVec 64).getLsbD (8 * j.val + i) =
      (b j).getLsbD i := by
  simp only [BitVec.getLsbD_append]
  obtain ⟨j, hj⟩ := j
  have hj' : j = 0 ∨ j = 1 ∨ j = 2 ∨ j = 3 ∨ j = 4 ∨ j = 5 ∨ j = 6 ∨ j = 7 := by omega
  rcases hj' with rfl | rfl | rfl | rfl | rfl | rfl | rfl | rfl <;>
    dsimp only <;> (repeat' split) <;> first | omega | (congr 1; omega)

/-- Reading a byte of lanes packed from bytes gives that byte (R43). -/
theorem byteAt_bytesToLanes (S : Vector Byte 200) (k : Fin 200) :
    byteAt (bytesToLanes S) k = S.get k := by
  apply BitVec.eq_of_getLsbD_eq
  intro i hi
  rw [getLsbD_byteAt _ _ _ hi]
  have := getLsbD_concat (byteOfLane S (laneOf k)) ⟨k.val % 8, by omega⟩ i hi
  simp only [bytesToLanes, Vector.get_eq_getElem, Vector.getElem_ofFn, bitOf]
  refine this.trans ?_
  have e : 8 * (k.val / 8) + k.val % 8 = k.val := by omega
  simp [byteOfLane, laneOf, e, Vector.get_eq_getElem]

end Sys2Proof.Machine
end

