-- ==== Sys2Proof/Laws/State.lean ====
section
/-! SUPPORT. One lemma per field for each shared update of the state, all by `rfl`, so that no later
proof unfolds a record update. -/

namespace Sys2Proof.Machine

section Permute
variable (s : State)
@[simp] theorem permute_lanes : (permute s).lanes = keccakF s.lanes := rfl
@[simp] theorem permute_mode : (permute s).mode = s.mode := rfl
@[simp] theorem permute_err : (permute s).err = s.err := rfl
@[simp] theorem permute_outlen : (permute s).outlen = s.outlen := rfl
@[simp] theorem permute_rate : (permute s).rate = s.rate := rfl
@[simp] theorem permute_cursor : (permute s).cursor = s.cursor := rfl
@[simp] theorem permute_commands : (permute s).commands = s.commands := rfl
@[simp] theorem permute_responses : (permute s).responses = s.responses := rfl
end Permute

section Respond
variable (st : Status) (data : List Byte) (s : State)
@[simp] theorem respond_lanes : (respond st data s).lanes = s.lanes := rfl
@[simp] theorem respond_mode : (respond st data s).mode = s.mode := rfl
@[simp] theorem respond_err : (respond st data s).err = s.err := rfl
@[simp] theorem respond_outlen : (respond st data s).outlen = s.outlen := rfl
@[simp] theorem respond_rate : (respond st data s).rate = s.rate := rfl
@[simp] theorem respond_cursor : (respond st data s).cursor = s.cursor := rfl
@[simp] theorem respond_commands : (respond st data s).commands = s.commands := rfl
@[simp] theorem respond_responses :
    (respond st data s).responses = s.responses ++ [⟨st, data⟩] := rfl
end Respond

section PresentWord
variable (w : CommandWord) (s : State)
@[simp] theorem presentWord_lanes : (presentWord w s).lanes = s.lanes := rfl
@[simp] theorem presentWord_mode : (presentWord w s).mode = s.mode := rfl
@[simp] theorem presentWord_err : (presentWord w s).err = s.err := rfl
@[simp] theorem presentWord_outlen : (presentWord w s).outlen = s.outlen := rfl
@[simp] theorem presentWord_rate : (presentWord w s).rate = s.rate := rfl
@[simp] theorem presentWord_cursor : (presentWord w s).cursor = s.cursor := rfl
@[simp] theorem presentWord_commands : (presentWord w s).commands = w :: s.commands := rfl
@[simp] theorem presentWord_responses : (presentWord w s).responses = s.responses := rfl
end PresentWord

section Reset
@[simp] theorem reset_lanes : State.reset.lanes = zeroLanes := rfl
@[simp] theorem reset_mode : State.reset.mode = .idle := rfl
@[simp] theorem reset_err : State.reset.err = .ok := rfl
@[simp] theorem reset_outlen : State.reset.outlen = 0 := rfl
@[simp] theorem reset_rate : State.reset.rate = 0 := rfl
@[simp] theorem reset_cursor : State.reset.cursor = 0 := rfl
@[simp] theorem reset_commands : State.reset.commands = [] := rfl
@[simp] theorem reset_responses : State.reset.responses = [] := rfl
end Reset

section ResetCore
variable (s : State)
@[simp] theorem resetCore_lanes : (resetCore s).lanes = zeroLanes := rfl
@[simp] theorem resetCore_mode : (resetCore s).mode = .idle := rfl
@[simp] theorem resetCore_err : (resetCore s).err = .ok := rfl
@[simp] theorem resetCore_outlen : (resetCore s).outlen = 0 := rfl
@[simp] theorem resetCore_rate : (resetCore s).rate = 0 := rfl
@[simp] theorem resetCore_cursor : (resetCore s).cursor = 0 := rfl
@[simp] theorem resetCore_commands : (resetCore s).commands = s.commands := rfl
@[simp] theorem resetCore_responses : (resetCore s).responses = [] := rfl
end ResetCore

/-- The host's sequence and the mode stand as they were when a block ends (R113). -/
@[simp] theorem permuteIfFull_commands (s : State) : (permuteIfFull s).commands = s.commands := by
  unfold permuteIfFull; split <;> rfl
@[simp] theorem permuteIfFull_responses (s : State) : (permuteIfFull s).responses = s.responses := by
  unfold permuteIfFull; split <;> rfl
@[simp] theorem permuteIfFull_mode (s : State) : (permuteIfFull s).mode = s.mode := by
  unfold permuteIfFull; split <;> rfl
@[simp] theorem permuteIfFull_err (s : State) : (permuteIfFull s).err = s.err := by
  unfold permuteIfFull; split <;> rfl
@[simp] theorem permuteIfFull_outlen (s : State) : (permuteIfFull s).outlen = s.outlen := by
  unfold permuteIfFull; split <;> rfl
@[simp] theorem permuteIfFull_rate (s : State) : (permuteIfFull s).rate = s.rate := by
  unfold permuteIfFull; split <;> rfl
@[simp] theorem permuteIfFull_cursor (s : State) :
    (permuteIfFull s).cursor = if s.cursor = s.rate then 0 else s.cursor := by
  unfold permuteIfFull; split <;> rfl
@[simp] theorem permuteIfFull_lanes (s : State) :
    (permuteIfFull s).lanes = if s.cursor = s.rate then keccakF s.lanes else s.lanes := by
  unfold permuteIfFull; split <;> rfl

@[simp] theorem permuteIfUsedUp_commands (s : State) : (permuteIfUsedUp s).commands = s.commands := by
  unfold permuteIfUsedUp; split <;> rfl
@[simp] theorem permuteIfUsedUp_responses (s : State) :
    (permuteIfUsedUp s).responses = s.responses := by
  unfold permuteIfUsedUp; split <;> rfl
@[simp] theorem permuteIfUsedUp_mode (s : State) : (permuteIfUsedUp s).mode = s.mode := by
  unfold permuteIfUsedUp; split <;> rfl
@[simp] theorem permuteIfUsedUp_err (s : State) : (permuteIfUsedUp s).err = s.err := by
  unfold permuteIfUsedUp; split <;> rfl
@[simp] theorem permuteIfUsedUp_outlen (s : State) : (permuteIfUsedUp s).outlen = s.outlen := by
  unfold permuteIfUsedUp; split <;> rfl
@[simp] theorem permuteIfUsedUp_rate (s : State) : (permuteIfUsedUp s).rate = s.rate := by
  unfold permuteIfUsedUp; split <;> rfl
@[simp] theorem permuteIfUsedUp_cursor (s : State) :
    (permuteIfUsedUp s).cursor = if s.rate ≤ s.cursor then 0 else s.cursor := by
  unfold permuteIfUsedUp; split <;> rfl
@[simp] theorem permuteIfUsedUp_lanes (s : State) :
    (permuteIfUsedUp s).lanes = if s.rate ≤ s.cursor then keccakF s.lanes else s.lanes := by
  unfold permuteIfUsedUp; split <;> rfl

end Sys2Proof.Machine
end

