-- ==== Sys2Proof/Laws/Commands.lean ====
section
/-! SUPPORT. One specification lemma per shared operation and per command: everything it can do, which
later proofs cite instead of unfolding it. -/

namespace Sys2Proof.Machine

theorem fail_eq (E : Status) (s : State) :
    fail E s = .next (respond E [] { s with err := recordError E s.err }) := rfl

theorem illegalCommand_eq (s : State) :
    illegalCommand s = .next (respond .illegalCommand [] { s with err := recordError .illegalCommand s.err }) :=
  rfl

@[simp] theorem recordError_ok (E : Status) : recordError E .ok = E := rfl

theorem recordError_of_ne_ok {E err : Status} (h : err ≠ .ok) : recordError E err = err := if_neg h

theorem withIndex_of_lt {k : Byte} (h : k.toNat < 200)
    (go : Fin 200 → Host.Outcome State Fault Refusal) : withIndex k go = go ⟨k.toNat, h⟩ := dif_pos h

theorem withIndex_of_not_lt {k : Byte} (h : ¬k.toNat < 200)
    (go : Fin 200 → Host.Outcome State Fault Refusal) :
    withIndex k go = .fault (.addressOutsideState k.toNat) := dif_neg h

/-- `withIndex` answers a next state only through an index inside the state. -/
theorem withIndex_eq_next {k : Byte} {go : Fin 200 → Host.Outcome State Fault Refusal} {t : State}
    (h : withIndex k go = .next t) : ∃ hk : k.toNat < 200, go ⟨k.toNat, hk⟩ = .next t := by
  unfold withIndex at h
  split at h
  · exact ⟨‹_›, h⟩
  · cases h

theorem withDigestRange_of_le {n : Byte} (h : n.toNat ≤ 200) (r : Host.Outcome State Fault Refusal) :
    withDigestRange n r = r := if_pos h

theorem withDigestRange_of_not_le {n : Byte} (h : ¬n.toNat ≤ 200)
    (r : Host.Outcome State Fault Refusal) :
    withDigestRange n r = .fault (.addressOutsideState 200) := if_neg h

theorem withDigestRange_eq_next {n : Byte} {r : Host.Outcome State Fault Refusal} {t : State}
    (h : withDigestRange n r = .next t) : n.toNat ≤ 200 ∧ r = .next t := by
  unfold withDigestRange at h
  split at h
  · exact ⟨‹_›, h⟩
  · cases h

/-- The two outcomes of `INIT` (R111). -/
theorem execInit_cases (L : Byte) (s : State) :
    (legalLength L = true ∧ execInit L s = .next (respond .ok []
      { s with lanes := zeroLanes, outlen := L, rate := rateOf L, cursor := 0, mode := .absorbing })) ∨
    (legalLength L = false ∧ execInit L s = fail .invalidParameter s) := by
  unfold execInit
  cases h : legalLength L <;> simp

/-- The next states of `ABSORB` (R113). -/
theorem execAbsorb_cases {data : Byte} {s t : State} (h : execAbsorb data s = .next t) :
    (s.mode ≠ .absorbing ∧ fail .invalidState s = .next t) ∨
    (s.mode = .absorbing ∧ ∃ hc : s.cursor.toNat < 200,
      t = respond .ok [] (permuteIfFull
        { s with lanes := xorByte s.lanes ⟨s.cursor.toNat, hc⟩ data, cursor := s.cursor + 1 })) := by
  unfold execAbsorb at h
  split at h
  · exact .inl ⟨‹_›, h⟩
  · obtain ⟨hc, ht⟩ := withIndex_eq_next h
    exact .inr ⟨not_not.mp ‹_›, hc, by cases ht; rfl⟩

/-- The next states of `FINALIZE` (R130). -/
theorem execFinalize_cases {s t : State} (h : execFinalize s = .next t) :
    (s.mode ≠ .absorbing ∧ fail .invalidState s = .next t) ∨
    (s.mode = .absorbing ∧ ∃ (hc : s.cursor.toNat < 200) (ht : (terminatorIndex s.rate).toNat < 200),
      s.outlen.toNat ≤ 200 ∧ ∃ A, A = keccakF (padLanes s.lanes sha3Suffix ⟨_, hc⟩ ⟨_, ht⟩) ∧
        t = respond .ok (digestBytes A s.outlen) { s with lanes := A, mode := .fixedSqueezed }) := by
  unfold execFinalize at h
  split at h
  · exact .inl ⟨‹_›, h⟩
  · obtain ⟨hc, h⟩ := withIndex_eq_next h
    obtain ⟨ht, h⟩ := withIndex_eq_next h
    obtain ⟨ho, h⟩ := withDigestRange_eq_next h
    exact .inr ⟨not_not.mp ‹_›, hc, ht, ho, _, rfl, by cases h; rfl⟩

/-- The next states of `BEGIN_SQUEEZE` (R140). -/
theorem execBeginSqueeze_cases {s t : State} (h : execBeginSqueeze s = .next t) :
    (s.mode ≠ .absorbing ∧ fail .invalidState s = .next t) ∨
    (s.mode = .absorbing ∧ ∃ (hc : s.cursor.toNat < 200) (ht : (terminatorIndex s.rate).toNat < 200),
      ∃ A, A = keccakF (padLanes s.lanes shakeSuffix ⟨_, hc⟩ ⟨_, ht⟩) ∧
        t = respond .ok [] { s with lanes := A, cursor := 0, mode := .xofSqueezing }) := by
  unfold execBeginSqueeze at h
  split at h
  · exact .inl ⟨‹_›, h⟩
  · obtain ⟨hc, h⟩ := withIndex_eq_next h
    obtain ⟨ht, h⟩ := withIndex_eq_next h
    exact .inr ⟨not_not.mp ‹_›, hc, ht, _, rfl, by cases h; rfl⟩

/-- The next states of `SQUEEZE` (R141). -/
theorem execSqueeze_cases {s t : State} (h : execSqueeze s = .next t) :
    (s.mode ≠ .xofSqueezing ∧ fail .invalidState s = .next t) ∨
    (s.mode = .xofSqueezing ∧ ∃ hc : (permuteIfUsedUp s).cursor.toNat < 200,
      t = respond .ok [byteAt (permuteIfUsedUp s).lanes ⟨_, hc⟩]
        { permuteIfUsedUp s with cursor := (permuteIfUsedUp s).cursor + 1 }) := by
  unfold execSqueeze at h
  split at h
  · exact .inl ⟨‹_›, h⟩
  · obtain ⟨hc, h⟩ := withIndex_eq_next h
    exact .inr ⟨not_not.mp ‹_›, hc, by cases h; rfl⟩

theorem takeCommand_nil {s : State} (h : s.commands = []) : takeCommand s = none := by
  simp [takeCommand, h]

theorem takeCommand_cons {s : State} {w : CommandWord} {rest : List CommandWord}
    (h : s.commands = w :: rest) : takeCommand s = some (w, { s with commands := rest }) := by
  simp [takeCommand, h]

@[simp] theorem takeCommand_presentWord (w : CommandWord) (s : State) :
    takeCommand (presentWord w s) = some (w, s) := rfl

/-- Everything a step can do: wait, run the decoded command, or answer an illegal word. -/
theorem step_cases (s : State) :
    (s.commands = [] ∧ step s = .next s) ∨
    (∃ w rest i, s.commands = w :: rest ∧ decode w = .ok i ∧
      step s = exec i { s with commands := rest }) ∨
    (∃ w rest e, s.commands = w :: rest ∧ decode w = .error e ∧
      step s = illegalCommand { s with commands := rest }) := by
  cases hc : s.commands with
  | nil => exact .inl ⟨rfl, by simp [step, takeCommand_nil hc, waitForCommand]⟩
  | cons w rest =>
    cases hd : decode w with
    | ok i => exact .inr (.inl ⟨w, rest, i, rfl, hd, by simp [step, takeCommand_cons hc, hd]⟩)
    | error e => exact .inr (.inr ⟨w, rest, e, rfl, hd, by simp [step, takeCommand_cons hc, hd]⟩)

end Sys2Proof.Machine
end

