-- ==== Sys2Proof/Laws/Encoding.lean ====
section
/-! SUPPORT. The fields of an assembled word are the ones it was assembled from (`30_encoding.md` R61). -/

namespace Sys2Proof

@[simp] theorem opcField_assembleWord (opc : BitVec 4) (imm : Byte) :
    opcField (assembleWord opc imm) = opc := by
  apply BitVec.eq_of_getLsbD_eq
  intro i hi
  have h1 : ¬12 + i < 8 := by omega
  have h2 : ¬12 + i - 8 < 4 := by omega
  simp only [opcField, assembleWord, BitVec.getLsbD_extractLsb', BitVec.getLsbD_append, hi, h1, h2,
    decide_true, Bool.true_and, if_false]
  congr 1; omega

@[simp] theorem rsvField_assembleWord (opc : BitVec 4) (imm : Byte) :
    rsvField (assembleWord opc imm) = 0 := by
  apply BitVec.eq_of_getLsbD_eq
  intro i hi
  have h1 : ¬8 + i < 8 := by omega
  have h2 : 8 + i - 8 < 4 := by omega
  simp only [rsvField, assembleWord, BitVec.getLsbD_extractLsb', BitVec.getLsbD_append, hi, h1, h2,
    decide_true, Bool.true_and, if_false, if_true]
  simp

@[simp] theorem immField_assembleWord (opc : BitVec 4) (imm : Byte) :
    immField (assembleWord opc imm) = imm := by
  apply BitVec.eq_of_getLsbD_eq
  intro i hi
  simp only [immField, assembleWord, BitVec.getLsbD_extractLsb', BitVec.getLsbD_append, hi,
    decide_true, Bool.true_and, if_true, Nat.zero_add]

/-- A word with `RSV = 0` is its two other fields. -/
theorem assembleWord_of_rsvField {w : CommandWord} (h : rsvField w = 0) :
    assembleWord (opcField w) (immField w) = w := by
  apply BitVec.eq_of_getLsbD_eq
  intro i hi
  simp only [assembleWord, BitVec.getLsbD_append]
  by_cases h1 : i < 8
  · simp [h1, immField]
  · rw [if_neg h1]
    by_cases h2 : i - 8 < 4
    · have hz := congrArg (fun b => b.getLsbD (i - 8)) h
      simp only [rsvField, BitVec.getLsbD_extractLsb', h2, decide_true, Bool.true_and] at hz
      rw [show 8 + (i - 8) = i by omega] at hz
      rw [if_pos h2, hz]
    · have h3 : i - 8 - 4 < 4 := by omega
      simp [h2, opcField, h3]
      congr 1; omega

@[simp] theorem withoutOperand_zero (i : Instr) : withoutOperand 0#8 i = .ok i := rfl

end Sys2Proof
end

