-- ==== Sys2Proof/Laws/PerInstr.lean ====
section
/-! SUPPORT. The statements made of every command as syntax, one lemma per constructor. -/

namespace Sys2Proof

/-- The `match` value of each row of `spec/opcode_table.json` (R63). -/
def tableMatch : Instr → CommandWord
  | .init _ => 0x1000
  | .absorb _ => 0x2000
  | .finalize => 0x3000
  | .beginSqueeze => 0x4000
  | .squeeze => 0x5000

/-- The `mask` value of each row of `spec/opcode_table.json` (R63). -/
def tableMask : Instr → CommandWord
  | .init _ => 0xFF00
  | .absorb _ => 0xFF00
  | .finalize => 0xFFFF
  | .beginSqueeze => 0xFFFF
  | .squeeze => 0xFFFF

namespace Laws.TableWord

/-- The command's word agrees with its table row: `word & mask = match` (R63). -/
def Statement (i : Instr) : Prop := encode i &&& tableMask i = tableMatch i

theorem operandMask (opc : BitVec 4) (imm : Byte) :
    assembleWord opc imm &&& (0xFF00 : CommandWord) = assembleWord opc 0 := by
  apply BitVec.eq_of_getLsbD_eq
  intro i hi
  have hm : (0xFF00 : CommandWord) = BitVec.allOnes 8 ++ (0 : BitVec 8) := by decide
  rw [hm]
  simp only [assembleWord, BitVec.getLsbD_and, BitVec.getLsbD_append, BitVec.getLsbD_allOnes]
  by_cases h1 : i < 8
  · simp [h1]
  · have h2 : i - 8 < 8 := by omega
    simp [h1, h2]

theorem init (L : Byte) : Statement (.init L) := operandMask 0x1 L
theorem absorb (data : Byte) : Statement (.absorb data) := operandMask 0x2 data
theorem finalize : Statement .finalize := by unfold Statement; decide
theorem beginSqueeze : Statement .beginSqueeze := by unfold Statement; decide
theorem squeeze : Statement .squeeze := by unfold Statement; decide

end Laws.TableWord

end Sys2Proof
end

