-- ==== Sys2Proof/Tests/Slice0.lean ====
section
/-! SUPPORT. Tests: the smoke test of well-formedness, words written out from the encoding rules, one step
on a small state against the vectors of `95_test_vectors.md`, and for each statement with hypotheses a
concrete state that meets them. Expected values come from the spec, never from the model. -/

namespace Sys2Proof.Tests

open Sys2Proof Sys2Proof.Machine

/-- A core in a context with output length `L`, with the zero state array. -/
def inContext (m : Mode) (L cursor : Byte) : State :=
  { State.reset with mode := m, outlen := L, rate := rateOf L, cursor := cursor }

/-- The same core with words to run. -/
def withWords (ws : List CommandWord) (s : State) : State := { s with commands := ws }

/-- The zero state array but for one lane. -/
def oneLane (i : Fin 25) (x : Lane) : Lanes := zeroLanes.set i.val x

/-- The state an outcome leads to, if it is a next state. -/
def nextState : Host.Outcome State Fault Refusal → Option State
  | .next t => some t
  | .fault _ => none
  | .refused _ => none

/-- The last response and the registers `(MODE, ERR, OUTLEN, RATE, CURSOR)` after an outcome. -/
def observed (o : Host.Outcome State Fault Refusal) :
    Option (Option Response × Mode × Status × Byte × Byte × Byte) :=
  (nextState o).map fun t => (t.responses.getLast?, t.mode, t.err, t.outlen, t.rate, t.cursor)

/-- The first bytes of the last response after an outcome. -/
def firstData (n : Nat) (o : Host.Outcome State Fault Refusal) : Option (List Byte) :=
  (nextState o).map fun t => (t.responses.getLast?.map (·.data.take n)).getD []

/-- The state array after an outcome. -/
def lanesAfter (o : Host.Outcome State Fault Refusal) : Option Lanes := (nextState o).map State.lanes

/-! ### Well-formedness (R68) -/

theorem test_illFormed_init : (AsmLine.init 256).wellFormed = false := by decide
theorem test_illFormed_absorb : (AsmLine.absorb 256).wellFormed = false := by decide
theorem test_illFormed_absorbChar : (AsmLine.absorbChar 'é').wellFormed = false := by decide
theorem test_illFormed_word : (AsmLine.word 0x10000).wellFormed = false := by decide
theorem test_illFormed_hash : (AsmLine.hash 256 []).wellFormed = false := by decide
theorem test_wellFormed_illegal_word : (AsmLine.word 0xFFFF).wellFormed = true := by decide
theorem test_assemble_refuses_illFormed :
    assemble (.init 256) = .error .operandOutOfRange := by decide

/-! ### Decoding: words written out from R61 and R63 (V-ENC1) -/

theorem test_decode_init : decode 0b0001000000100000 = .ok (.init 32) := by decide
theorem test_decode_init_illegal_length : decode 0b0001000011111111 = .ok (.init 255) := by decide
theorem test_decode_absorb : decode 0b0010000001100001 = .ok (.absorb 0x61) := by decide
theorem test_decode_finalize : decode 0b0011000000000000 = .ok .finalize := by decide
theorem test_decode_beginSqueeze : decode 0b0100000000000000 = .ok .beginSqueeze := by decide
theorem test_decode_squeeze : decode 0b0101000000000000 = .ok .squeeze := by decide
theorem test_decode_illegal_immediate :
    decode 0x3001 = .error .immediate ∧ decode 0x4080 = .error .immediate ∧
      decode 0x5001 = .error .immediate := by decide
theorem test_decode_illegal_opcode :
    decode 0x0000 = .error .opcode ∧ decode 0x6000 = .error .opcode ∧
      decode 0xF0FF = .error .opcode := by decide
theorem test_decode_illegal_reserved :
    decode 0x1120 = .error .reservedBits ∧ decode 0x2F61 = .error .reservedBits ∧
      decode 0xFFFF = .error .reservedBits := by decide
theorem test_decodeTableWord :
    decodeTableWord 16 0x2061 = some (.absorb 0x61) ∧ decodeTableWord 16 0x6000 = none := by decide
theorem test_encode :
    encode (.init 64) = 0x1040 ∧ encode (.absorb 0xFF) = 0x20FF ∧ encode .squeeze = 0x5000 := by decide

/-! ### The permutation (V-TH1 to V-KF1) -/

theorem test_theta : (theta (oneLane 0 1)).toList =
    [1, 1, 0, 0, 2, 0, 1, 0, 0, 2, 0, 1, 0, 0, 2, 0, 1, 0, 0, 2, 0, 1, 0, 0, 2] := by decide +kernel
theorem test_rhoPi_first_move : rhoPi (oneLane 1 1) = oneLane 10 2 := by decide +kernel
theorem test_rhoPi_last_move :
    rhoPi (oneLane 6 0x8000000000000000) = oneLane 1 0x0000080000000000 := by decide +kernel
theorem test_rhoPi_lane_zero_stands : rhoPi (oneLane 0 1) = oneLane 0 1 := by decide +kernel
theorem test_chi_snapshot : (chi ((oneLane 1 0xF0).set 2 0xFF)).toList.take 6 =
    [0x0F, 0xF0, 0xFF, 0, 0xF0, 0] := by decide +kernel
theorem test_chi_rows_are_apart : chi (oneLane 5 0xFFFFFFFFFFFFFFFF) =
    (oneLane 5 0xFFFFFFFFFFFFFFFF).set 8 0xFFFFFFFFFFFFFFFF := by decide +kernel
theorem test_iota : iota 23 zeroLanes = oneLane 0 0x8000000080008008 := by decide +kernel
theorem test_second_round : (keccakRound (keccakRound zeroLanes 0) 1).toList =
    [0x8083, 0x100000000000, 0x8000, 1, 0x100000008000,
      0, 0x200000200000, 0, 0x200000000000, 0x200000,
      2, 0x200, 0, 0x202, 0,
      0x10000400, 0, 0x400, 0x10000000, 0,
      0x10000000000, 0, 0x10000000004, 0, 4] := by decide +kernel
/-- V-KF1. -/
theorem test_keccakF_zero : (keccakF zeroLanes).get 0 = 0xF1258F7940E1DDE7 ∧
    (keccakF zeroLanes).get 24 = 0xEAF1FF7B5CECA249 := by decide +kernel

/-! ### The byte view (R13, R43) -/

theorem test_byte_order : byteAt (oneLane 1 0x0807060504030201) 8 = 0x01 ∧
    byteAt (oneLane 1 0x0807060504030201) 15 = 0x08 := by decide +kernel
/-- V-SRC2: the padding of an empty SHA3-256 message. -/
theorem test_padding : padLanes zeroLanes 0x06 0 135 =
    (oneLane 0 0x06).set 16 0x8000000000000000 := by decide +kernel
/-- V-SRC4: the merged padding byte. -/
theorem test_merged_padding : padLanes zeroLanes 0x06 135 135 = oneLane 16 0x8600000000000000 := by decide +kernel

/-! ### One step of each command (section 2 of the vectors) -/

/-- V-IN1. -/
theorem test_init : observed (step (withWords [0x1010] State.reset)) =
    some (some ⟨.ok, []⟩, .absorbing, .ok, 16, 168, 0) := by decide +kernel
/-- V-IN2, after `INIT 32`. -/
theorem test_init_illegal_length :
    observed (step (withWords [0x1018] (inContext .absorbing 32 5))) =
      some (some ⟨.invalidParameter, []⟩, .absorbing, .invalidParameter, 32, 136, 5) := by decide +kernel
/-- V-AB1, the third byte. -/
theorem test_absorb :
    lanesAfter (exec (.absorb 0x63) { inContext .absorbing 32 2 with lanes := oneLane 0 0x6261 }) =
      some (oneLane 0 0x636261) := by decide +kernel
/-- V-AB2: the 72nd byte fills the block. -/
theorem test_absorb_fills_block :
    (nextState (exec (.absorb 0) (inContext .absorbing 64 71))).map
      (fun t => (t.cursor, t.lanes.get 0)) = some (0, 0xF1258F7940E1DDE7) := by decide +kernel
/-- V-FIN1: SHA3-256 of the empty message. -/
theorem test_finalize : firstData 64 (exec .finalize (inContext .absorbing 32 0)) =
    some [0xA7, 0xFF, 0xC6, 0xF8, 0xBF, 0x1E, 0xD7, 0x66, 0x51, 0xC1, 0x47, 0x56, 0xA0, 0x61, 0xD6,
      0x62, 0xF5, 0x80, 0xFF, 0x4D, 0xE4, 0x3B, 0x49, 0xFA, 0x82, 0xD8, 0x0A, 0x4B, 0x80, 0xF8, 0x43,
      0x4A] := by decide +kernel
/-- V-FIN5: SHA3-512 of 71 zero bytes, whose padding is one byte. -/
theorem test_finalize_merged : firstData 8 (exec .finalize (inContext .absorbing 64 71)) =
    some [0xCD, 0x87, 0x41, 0x71, 0x94, 0xC9, 0x17, 0x56] := by decide +kernel
/-- V-XOF3: the first block of SHAKE256 of the empty message. -/
theorem test_beginSqueeze :
    (nextState (exec .beginSqueeze (inContext .absorbing 32 0))).map
      (fun t => (t.mode, t.cursor, byteAt t.lanes 0, byteAt t.lanes 1)) =
      some (.xofSqueezing, 0, 0x46, 0xB9) := by decide +kernel
/-- V-XOF7: a second `BEGIN_SQUEEZE`. -/
theorem test_beginSqueeze_twice :
    observed (step (withWords [0x4000] (inContext .xofSqueezing 16 0))) =
      some (some ⟨.invalidState, []⟩, .xofSqueezing, .invalidState, 16, 168, 0) := by decide +kernel
/-- R141, within a block: the byte at the cursor. -/
theorem test_squeeze :
    observed (exec .squeeze { inContext .xofSqueezing 16 9 with lanes := oneLane 1 0xAB00 }) =
      some (some ⟨.ok, [0xAB]⟩, .xofSqueezing, .ok, 16, 168, 10) := by decide +kernel
/-- R141 and V-KF1: the deferred permutation of the zero state, then its byte 0. -/
theorem test_squeeze_deferred_permutation :
    observed (exec .squeeze (inContext .xofSqueezing 16 168)) =
      some (some ⟨.ok, [0xE7]⟩, .xofSqueezing, .ok, 16, 168, 1) := by decide +kernel

/-! ### Failures, the host's words and the assembler -/

/-- V-ERR1. -/
theorem test_illegal_word_first : observed (step (withWords [0x3001] State.reset)) =
    some (some ⟨.illegalCommand, []⟩, .idle, .illegalCommand, 0, 0, 0) := by decide
/-- V-ERR2: `ERR` keeps the first failure. -/
theorem test_err_is_sticky :
    observed (step { withWords [0x1021] State.reset with err := .illegalCommand }) =
      some (some ⟨.invalidParameter, []⟩, .idle, .illegalCommand, 0, 0, 0) := by decide
theorem test_withFetchWord : observed (step (State.reset.withFetchWord 16 0x2061)) =
    some (some ⟨.invalidState, []⟩, .idle, .invalidState, 0, 0, 0) := by decide
/-- R30. -/
theorem test_status_output :
    statusOutput { inContext .xofSqueezing 16 0 with err := .invalidParameter } = 0b0111 := by decide

/-- Lines of program P1, P3 and R68. -/
theorem test_text_init : assembleText "INIT 32            ; 0x1020".toList = .ok [0x1020] := by decide
theorem test_text_character : assembleText "ABSORB 'c'         ; 0x2063".toList = .ok [0x2063] := by
  decide
theorem test_text_hexadecimal : assembleText ".word 0xF0fF".toList = .ok [0xF0FF] := by decide
theorem test_text_out_of_range :
    assembleText "ABSORB 256".toList = .error .operandOutOfRange := by decide
theorem test_text_no_operand : assembleText "SQUEEZE 1".toList = .error .badForm := by decide
/-- Log entry 6: a line with no token. -/
theorem test_text_blank : assembleText " ; no command".toList = .ok [] := by decide
/-- P2: the encoding of `SHAKE128` of "abc" with two output bytes. -/
theorem test_pseudo_shake128 : assemble (.shake128 [0x61, 0x62, 0x63] 2) =
    .ok [0x1010, 0x2061, 0x2062, 0x2063, 0x4000, 0x5000, 0x5000] := by decide

/-! ### Witnesses: states and operands that meet the hypotheses of the statements, clause by clause -/

/-- A core in an XOF context that has emitted a whole block. -/
def usedUp : State := inContext .xofSqueezing 16 168

theorem witness_IllegalWordsAreThoseOfTheRule :
    (∃ (s : State) (w : CommandWord) (rest : List CommandWord) (e : IllegalWord),
      s.commands = w :: rest ∧ decode w = .error e) ∧
    (∀ L ∈ ([0, 15, 17, 63, 65, 255] : List Byte), L ∉ ([16, 20, 28, 32, 48, 64] : List Byte)) :=
  ⟨⟨withWords [0x6000] State.reset, _, _, .opcode, rfl, by decide⟩, by decide⟩

theorem witness_OpcodeMapMatchesUnderMask :
    decode 0x1000 = .ok (.init 0) ∧ decode 0x10FF = .ok (.init 255) ∧
    decode 0x2000 = .ok (.absorb 0) ∧ decode 0x20FF = .ok (.absorb 255) ∧
    (0x0FFF : CommandWord).toNat / 4096 = 0 ∧ 6 ≤ (0x6000 : CommandWord).toNat / 4096 := by decide

theorem witness_StepRunsTheDecodedCommand :
    (∃ (s : State) (w : CommandWord) (rest : List CommandWord) (i : Instr),
      s.commands = w :: rest ∧ decode w = .ok i) ∧
    (∃ (w : Nat) (i : Instr), decodeTableWord 16 w = some i) :=
  ⟨⟨withWords [0x1010, 0x3000] State.reset, _, _, .init 16, rfl, by decide⟩,
    ⟨0x5000, .squeeze, by decide⟩⟩

theorem witness_WaitingCoreLosesNoState : (inContext .absorbing 32 7).commands = [] := rfl

theorem witness_InitStartsAFreshContext :
    (16 : Byte) ∈ ([16, 20, 28, 32, 48, 64] : List Byte) ∧
    (64 : Byte) ∈ ([16, 20, 28, 32, 48, 64] : List Byte) ∧
    (∀ L ∈ ([0, 99, 100, 255] : List Byte), L ∉ ([16, 20, 28, 32, 48, 64] : List Byte)) := by decide

/-- Mid-block, the byte that fills the block, and a mode that refuses. -/
theorem witness_AbsorbXorsAtTheCursor :
    (∀ c ∈ ([0, 70, 71] : List Byte), (inContext .absorbing 64 c).Inv ∧
      (inContext .absorbing 64 c).mode = .absorbing ∧
      (inContext .absorbing 64 c).cursor.toNat < 200) ∧
    (inContext .absorbing 64 70).cursor.toNat + 1 ≠ (inContext .absorbing 64 70).rate.toNat ∧
    (inContext .absorbing 64 71).cursor.toNat + 1 = (inContext .absorbing 64 71).rate.toNat ∧
    (inContext .xofSqueezing 64 0).mode ≠ .absorbing := by decide

/-- An empty block, and the merged padding byte; and a word that is illegal. -/
theorem witness_FinalizePadsPermutesAndEmits :
    (∀ c ∈ ([0, 71] : List Byte), (inContext .absorbing 64 c).mode = .absorbing ∧
      (inContext .absorbing 64 c).cursor.toNat < 200 ∧ 1 ≤ (inContext .absorbing 64 c).rate.toNat ∧
      (inContext .absorbing 64 c).rate.toNat ≤ 200 ∧
      (inContext .absorbing 64 c).outlen.toNat ≤ 200) ∧
    State.reset.mode ≠ .absorbing ∧
    (withWords [0x3100] State.reset).commands = [0x3100] ∧
    (0x3100 : CommandWord).toNat / 4096 = 3 ∧ (0x3100 : CommandWord) ≠ 0x3000 :=
  ⟨by decide, by decide, rfl, by decide, by decide⟩

theorem witness_BeginSqueezePadsPermutesAndResetsCursor :
    (∀ c ∈ ([0, 167] : List Byte), (inContext .absorbing 16 c).mode = .absorbing ∧
      (inContext .absorbing 16 c).cursor.toNat < 200 ∧ 1 ≤ (inContext .absorbing 16 c).rate.toNat ∧
      (inContext .absorbing 16 c).rate.toNat ≤ 200) ∧
    (inContext .fixedSqueezed 16 0).mode ≠ .absorbing ∧
    (withWords [0x4080] State.reset).commands = [0x4080] ∧
    (0x4080 : CommandWord).toNat / 4096 = 4 ∧ (0x4080 : CommandWord) ≠ 0x4000 :=
  ⟨by decide, by decide, rfl, by decide, by decide⟩

/-- The first and the last byte of a block, and the used-up block. -/
theorem witness_SqueezeEmitsOneByte :
    (∀ c ∈ ([0, 167] : List Byte), (inContext .xofSqueezing 16 c).Inv ∧
      (inContext .xofSqueezing 16 c).mode = .xofSqueezing ∧
      (inContext .xofSqueezing 16 c).cursor.toNat < 200 ∧
      (inContext .xofSqueezing 16 c).cursor.toNat < (inContext .xofSqueezing 16 c).rate.toNat) ∧
    (usedUp.Inv ∧ usedUp.mode = .xofSqueezing ∧ usedUp.rate.toNat ≤ usedUp.cursor.toNat) ∧
    (inContext .absorbing 16 0).mode ≠ .xofSqueezing ∧
    (withWords [0x5FFF] State.reset).commands = [0x5FFF] ∧
    (0x5FFF : CommandWord).toNat / 4096 = 5 ∧ (0x5FFF : CommandWord) ≠ 0x5000 :=
  ⟨by decide, by decide, by decide, rfl, by decide, by decide⟩

theorem witness_MergedPaddingByteIsXoredWith86 :
    (inContext .absorbing 64 71).mode = .absorbing ∧
    (inContext .absorbing 64 71).cursor.toNat + 1 = (inContext .absorbing 64 71).rate.toNat ∧
    (inContext .absorbing 64 71).rate.toNat ≤ 200 ∧
    (inContext .absorbing 64 71).outlen.toNat ≤ 200 := by decide

theorem witness_SecondFinalizeFails :
    (withWords [0x3000, 0x3000, 0x5000] (inContext .absorbing 32 3)).Inv ∧
    (withWords [0x3000, 0x3000, 0x5000] (inContext .absorbing 32 3)).mode = .absorbing ∧
    (withWords [0x3000, 0x3000, 0x5000] (inContext .absorbing 32 3)).commands =
      [0x3000, 0x3000, 0x5000] := by decide

/-- Both sides: a cursor on the last byte of the state answers, one beyond it stops. -/
theorem witness_OnlyAbsentBytesStopACommand :
    (∃ t, exec (.absorb 1) (inContext .absorbing 16 199) = .next t) ∧
    exec (.absorb 1) (inContext .absorbing 16 200) = .fault (.addressOutsideState 200) ∧
    exec .finalize { inContext .absorbing 16 0 with rate := 0 } =
      .fault (.addressOutsideState 255) ∧
    exec .finalize { inContext .absorbing 16 0 with outlen := 201 } =
      .fault (.addressOutsideState 200) :=
  ⟨⟨_, rfl⟩, rfl, rfl, rfl⟩

/-- An `ABSORB` mid-block, a `SQUEEZE` within a block, and a command that fails. -/
theorem witness_CommandFrames :
    (∃ t, exec (.absorb 1) (inContext .absorbing 16 166) = .next t ∧
      (inContext .absorbing 16 166).cursor.toNat + 1 ≠ (inContext .absorbing 16 166).rate.toNat) ∧
    (∃ t, exec .squeeze (inContext .xofSqueezing 16 167) = .next t ∧
      (inContext .xofSqueezing 16 167).cursor.toNat <
        (inContext .xofSqueezing 16 167).rate.toNat) ∧
    (∃ t r, exec .finalize State.reset = .next t ∧ t.responses = State.reset.responses ++ [r] ∧
      r.status ≠ .ok) :=
  ⟨⟨_, rfl, by decide⟩, ⟨_, rfl, by decide⟩, ⟨_, _, rfl, rfl, by decide⟩⟩

theorem witness_CapacityIsNeverWrittenDirectly :
    ∃ t r, (inContext .absorbing 64 5).Inv ∧ (∀ L, Instr.absorb 1 ≠ .init L) ∧
      exec (.absorb 1) (inContext .absorbing 64 5) = .next t ∧
      t.responses = (inContext .absorbing 64 5).responses ++ [r] ∧
      (inContext .absorbing 64 5).rate.toNat ≤ (72 : Fin 200).val :=
  ⟨_, _, by decide, nofun, rfl, rfl, by decide⟩

/-- Legal registers in each of the four modes. -/
theorem witness_LifecycleTableHolds :
    State.reset.Inv ∧ (inContext .absorbing 20 159).Inv ∧ (inContext .fixedSqueezed 28 0).Inv ∧
    (inContext .xofSqueezing 48 104).Inv ∧
    (withWords [0xFFFF] State.reset).commands = [0xFFFF] ∧
    decode 0xFFFF = .error .reservedBits :=
  ⟨by decide, by decide, by decide, by decide, rfl, by decide⟩

theorem witness_FailureChangesOnlyErr :
    ∃ t r, (withWords [0x5000] State.reset).commands = [0x5000] ∧
      step (withWords [0x5000] State.reset) = .next t ∧
      t.responses = (withWords [0x5000] State.reset).responses ++ [r] ∧ r.status ≠ .ok :=
  ⟨_, _, rfl, rfl, rfl, by decide⟩

/-- One witness for each status. -/
theorem witness_EachStatusHasItsCause :
    (∃ t, step (withWords [0x1010] State.reset) = .next t ∧
      t.responses = (withWords [0x1010] State.reset).responses ++ [⟨.ok, []⟩]) ∧
    (∃ t, step (withWords [0x1011] State.reset) = .next t ∧
      t.responses = (withWords [0x1011] State.reset).responses ++ [⟨.invalidParameter, []⟩]) ∧
    (∃ t, step (withWords [0x2000] State.reset) = .next t ∧
      t.responses = (withWords [0x2000] State.reset).responses ++ [⟨.invalidState, []⟩]) ∧
    (∃ t, step (withWords [0x5001] State.reset) = .next t ∧
      t.responses = (withWords [0x5001] State.reset).responses ++ [⟨.illegalCommand, []⟩]) :=
  ⟨⟨_, rfl, rfl⟩, ⟨_, rfl, rfl⟩, ⟨_, rfl, rfl⟩, ⟨_, rfl, rfl⟩⟩

theorem witness_EveryCommandIsAnsweredOnce :
    ∃ t, (withWords [0x5000] (inContext .xofSqueezing 16 0)).commands = [0x5000] ∧
      step (withWords [0x5000] (inContext .xofSqueezing 16 0)) = .next t :=
  ⟨_, rfl, rfl⟩

theorem witness_ErrHoldsTheFirstFailure :
    (∃ t, (withWords [0x2000] State.reset).err =
        resultStatus (withWords [0x2000] State.reset).responses ∧
      step (withWords [0x2000] State.reset) = .next t) ∧
    (∃ t, { withWords [0x1010] State.reset with err := .invalidState }.err ≠ .ok ∧
      step { withWords [0x1010] State.reset with err := .invalidState } = .next t) :=
  ⟨⟨_, rfl, rfl⟩, ⟨_, by decide, rfl⟩⟩

theorem witness_ErrIsOkIffEveryCommandWasOk :
    (∃ t, run 2 { State.reset with commands := [0x1010, 0x2061] } = .next t ∧ t.err = .ok) ∧
    (∃ t, run 2 { State.reset with commands := [0x2061, 0x1010] } = .next t ∧ t.err ≠ .ok) :=
  ⟨⟨_, rfl, rfl⟩, ⟨_, rfl, by decide⟩⟩

theorem witness_StepKeepsRegistersLegal :
    ∃ t, (withWords [0x2001] (inContext .absorbing 32 134)).Inv ∧
      step (withWords [0x2001] (inContext .absorbing 32 134)) = .next t :=
  ⟨_, by decide, rfl⟩

theorem witness_LegalRegistersNeverStop :
    usedUp.Inv ∧ (withWords [0x5000] usedUp).Inv ∧ (inContext .absorbing 32 135).Inv := by decide

theorem witness_OnlyInitWritesRate :
    (∃ t, exec (.init 64) State.reset = .next t ∧
      t.responses = State.reset.responses ++ [⟨.ok, []⟩]) ∧
    (∃ t, step (withWords [0x1040] State.reset) = .next t ∧
      t.rate ≠ (withWords [0x1040] State.reset).rate) :=
  ⟨⟨_, rfl, rfl⟩, ⟨_, rfl, by decide⟩⟩

theorem witness_OnlyInitReturnsToAbsorbing :
    (∃ t, (withWords [0x1020] (inContext .fixedSqueezed 32 3)).mode = .fixedSqueezed ∧
      step (withWords [0x1020] (inContext .fixedSqueezed 32 3)) = .next t ∧ t.mode = .absorbing) ∧
    (∃ t, (withWords [0x1010] usedUp).mode = .xofSqueezing ∧
      step (withWords [0x1010] usedUp) = .next t ∧ t.mode = .absorbing) :=
  ⟨⟨_, rfl, rfl, rfl⟩, ⟨_, rfl, rfl, rfl⟩⟩

theorem witness_LegalLengthsFitTheRate :
    legalLength 16 = true ∧ legalLength 64 = true ∧ 100 ≤ (100 : Byte).toNat ∧
    100 ≤ (255 : Byte).toNat := by decide

theorem witness_CommandsComposeInOrder :
    ∃ t, run [0x1010, 0x2061].length { State.reset with commands := [0x1010, 0x2061] } = .next t :=
  ⟨_, rfl⟩

theorem witness_EveryIssuedCommandIsAnswered :
    (withWords [0x5000, 0x5000, 0x0000, 0x1010] usedUp).Inv ∧
    (withWords [0x5000, 0x5000, 0x0000, 0x1010] usedUp).commands[0]? = some 0x5000 ∧
    (withWords [0x5000, 0x5000, 0x0000, 0x1010] usedUp).commands[3]? = some 0x1010 :=
  ⟨by decide, rfl, rfl⟩

theorem witness_CommandsAreFunctionsOfCoreAndWord :
    ∃ t, exec (.absorb 7) (withWords [0x3000] (inContext .absorbing 16 0)) = .next t :=
  ⟨_, rfl⟩

theorem witness_ResetStateArrayIsUnobservable :
    ∃ t, run 3 { State.reset with commands := [0x2061, 0x1010, 0x2061] } = .next t :=
  ⟨_, rfl⟩

theorem witness_AbsorbingIsTheBlockwiseSponge :
    legalLength 64 = true ∧
    (withWords [0x1040, 0x2061, 0x2062, 0x3000] State.reset).commands =
      encode (.init 64) :: absorbWords [0x61, 0x62] ++ [0x3000] := by decide

theorem witness_HashIsTheSpongeOfThePaddedMessage :
    legalLength 32 = true ∧
    (withWords [0x1020, 0x2061, 0x2062, 0x2063, 0x3000, 0x5000] State.reset).commands =
      hashWords 32 [0x61, 0x62, 0x63] ++ [0x5000] := by decide

theorem witness_ShakeIsTheStreamOfThePaddedMessage :
    legalLength 16 = true ∧
    (withWords [0x1010, 0x2061, 0x4000, 0x5000, 0x5000] usedUp).commands =
      xofWords 16 [0x61] 2 ++ [] := by decide

theorem witness_SqueezeStreamFollowsTheBlocks :
    (withWords (squeezeWords 3) (inContext .xofSqueezing 32 0)).Inv ∧
    (withWords (squeezeWords 3) (inContext .xofSqueezing 32 0)).mode = .xofSqueezing ∧
    (withWords (squeezeWords 3) (inContext .xofSqueezing 32 0)).cursor = 0 ∧
    (withWords (squeezeWords 3) (inContext .xofSqueezing 32 0)).commands = squeezeWords 3 := by
  decide

/-- Also with answers from before, as in every squeezing state of a run from reset. -/
theorem witness_SqueezingIsPrefixConsistent :
    usedUp.Inv ∧ usedUp.mode = .xofSqueezing ∧
    { usedUp with responses := [⟨.ok, []⟩, ⟨.ok, []⟩] }.Inv := by
  decide

/-- `C` of R82 exists for every array. -/
theorem witness_ThetaChiIotaLaneByLane (A : Lanes) :
    ∃ C : Fin 5 → Lane, ∀ x : Fin 5,
      C x = A.get (Fin.ofNat 25 x.val) ^^^ A.get (Fin.ofNat 25 (x.val + 5)) ^^^
        A.get (Fin.ofNat 25 (x.val + 10)) ^^^ A.get (Fin.ofNat 25 (x.val + 15)) ^^^
        A.get (Fin.ofNat 25 (x.val + 20)) :=
  ⟨_, fun _ => rfl⟩

/-- An IDLE core with another array, and a word that reads no array. -/
theorem witness_StepKeepsTheStateArrayHidden :
    AgreeUntilInit (withWords [0x2061] State.reset)
      { withWords [0x2061] State.reset with lanes := oneLane 0 1 } ∧
    (∃ t, step (withWords [0x2061] State.reset) = .next t) :=
  ⟨⟨rfl, fun h => absurd rfl h⟩, ⟨_, rfl⟩⟩

theorem witness_AssemblerFormsAndOperandRanges :
    0 ≤ 255 ∧ 255 ≤ 255 ∧ (Char.ofNat 127).toNat ≤ 127 ∧ 0xFFFF ≤ 0xFFFF ∧ 255 < 256 ∧
    0xFFFF < 0x10000 := by decide

theorem witness_CoresAreIndependent :
    (∃ q, Platform.stepCore ⟨[withWords [0x1010] State.reset, State.reset]⟩ ⟨0, by decide⟩ =
      .next q) ∧
    (∃ q, Platform.stepCore ⟨[State.reset, withWords [0x2061] State.reset]⟩ ⟨1, by decide⟩ =
      .next q) :=
  ⟨⟨_, rfl⟩, ⟨_, rfl⟩⟩

end Sys2Proof.Tests
end

/-! The state: what a command and a step can do, told once, and the statements about registers, `ERR`,
the capacity and the hidden state array (`10_state.md`). -/

namespace Sys2Proof.Machine

/-! ### Failure -/

section AfterFailure
variable (E : Status) (s : State)
@[simp] theorem afterFailure_lanes : (afterFailure E s).lanes = s.lanes := rfl
@[simp] theorem afterFailure_mode : (afterFailure E s).mode = s.mode := rfl
@[simp] theorem afterFailure_err : (afterFailure E s).err = recordError E s.err := rfl
@[simp] theorem afterFailure_outlen : (afterFailure E s).outlen = s.outlen := rfl
@[simp] theorem afterFailure_rate : (afterFailure E s).rate = s.rate := rfl
@[simp] theorem afterFailure_cursor : (afterFailure E s).cursor = s.cursor := rfl
@[simp] theorem afterFailure_commands : (afterFailure E s).commands = s.commands := rfl
@[simp] theorem afterFailure_responses :
    (afterFailure E s).responses = s.responses ++ [⟨E, []⟩] := rfl
end AfterFailure

/-- The machine's failure (R165) leaves the state the statements name. -/
theorem fail_eq_afterFailure (E : Status) (s : State) : fail E s = .next (afterFailure E s) := rfl

/-- A command that answers OK records nothing (R28). -/
@[simp] theorem recordError_status_ok (err : Status) : recordError .ok err = err := by
  by_cases h : err = .ok
  · rw [h]; rfl
  · exact recordError_of_ne_ok h

/-! ### What a command can do -/

/-- Command `i` completes from `s` and leaves `t`: the success branch of each command, with the index
checks it passed (R111, R113, R130, R140, R141). -/
inductive Completes : Instr → State → State → Prop
  | init {L : Byte} {s : State} (hL : legalLength L = true) :
      Completes (.init L) s (respond .ok []
        { s with lanes := zeroLanes, outlen := L, rate := rateOf L, cursor := 0, mode := .absorbing })
  | absorb {d : Byte} {s : State} (hm : s.mode = .absorbing) (hc : s.cursor.toNat < 200) :
      Completes (.absorb d) s (respond .ok [] (permuteIfFull
        { s with lanes := xorByte s.lanes ⟨s.cursor.toNat, hc⟩ d, cursor := s.cursor + 1 }))
  | finalize {s : State} {A : Lanes} (hm : s.mode = .absorbing) (hc : s.cursor.toNat < 200)
      (ht : (terminatorIndex s.rate).toNat < 200)
      (hA : A = keccakF (padLanes s.lanes sha3Suffix ⟨_, hc⟩ ⟨_, ht⟩)) :
      Completes .finalize s
        (respond .ok (digestBytes A s.outlen) { s with lanes := A, mode := .fixedSqueezed })
  | beginSqueeze {s : State} {A : Lanes} (hm : s.mode = .absorbing) (hc : s.cursor.toNat < 200)
      (ht : (terminatorIndex s.rate).toNat < 200)
      (hA : A = keccakF (padLanes s.lanes shakeSuffix ⟨_, hc⟩ ⟨_, ht⟩)) :
      Completes .beginSqueeze s
        (respond .ok [] { s with lanes := A, cursor := 0, mode := .xofSqueezing })
  | squeeze {s : State} (hm : s.mode = .xofSqueezing)
      (hc : (permuteIfUsedUp s).cursor.toNat < 200) :
      Completes .squeeze s (respond .ok [byteAt (permuteIfUsedUp s).lanes ⟨_, hc⟩]
        { permuteIfUsedUp s with cursor := (permuteIfUsedUp s).cursor + 1 })

section TableStatus
variable (m : Mode)
@[simp] theorem tableStatus_init (L : Byte) :
    tableStatus m (.init L) = if legalLength L then .ok else .invalidParameter := by cases m <;> rfl
@[simp] theorem tableStatus_absorb (d : Byte) :
    tableStatus m (.absorb d) = if m = .absorbing then .ok else .invalidState := by cases m <;> rfl
@[simp] theorem tableStatus_finalize :
    tableStatus m .finalize = if m = .absorbing then .ok else .invalidState := by cases m <;> rfl
@[simp] theorem tableStatus_beginSqueeze :
    tableStatus m .beginSqueeze = if m = .absorbing then .ok else .invalidState := by cases m <;> rfl
@[simp] theorem tableStatus_squeeze :
    tableStatus m .squeeze = if m = .xofSqueezing then .ok else .invalidState := by cases m <;> rfl
end TableStatus

/-- Where the lifecycle table (R110) gives a failure, the command fails with that status. -/
theorem exec_of_tableStatus_ne_ok {i : Instr} {s : State} (h : tableStatus s.mode i ≠ .ok) :
    exec i s = .next (afterFailure (tableStatus s.mode i) s) := by
  rw [← fail_eq_afterFailure]
  cases i with
  | init L =>
    have hL : legalLength L = false := by simpa using h
    simp [exec, execInit, hL]
  | absorb d =>
    have hm : s.mode ≠ .absorbing := by simpa using h
    simp [exec, execAbsorb, hm]
  | finalize =>
    have hm : s.mode ≠ .absorbing := by simpa using h
    simp [exec, execFinalize, hm]
  | beginSqueeze =>
    have hm : s.mode ≠ .absorbing := by simpa using h
    simp [exec, execBeginSqueeze, hm]
  | squeeze =>
    have hm : s.mode ≠ .xofSqueezing := by simpa using h
    simp [exec, execSqueeze, hm]

/-- Where the lifecycle table gives OK, a command that answers completes. -/
theorem completes_of_tableStatus_ok {i : Instr} {s t : State} (h : tableStatus s.mode i = .ok)
    (ht : exec i s = .next t) : Completes i s t := by
  cases i with
  | init L =>
    obtain ⟨hL, he⟩ | ⟨hL, -⟩ := execInit_cases L s
    · cases he.symm.trans ht
      exact .init hL
    · simp [hL] at h
  | absorb d =>
    obtain ⟨hm, -⟩ | ⟨hm, hc, rfl⟩ := execAbsorb_cases ht
    · exact absurd (by simpa using h) hm
    · exact .absorb hm hc
  | finalize =>
    obtain ⟨hm, -⟩ | ⟨hm, hc, hr, -, A, hA, rfl⟩ := execFinalize_cases ht
    · exact absurd (by simpa using h) hm
    · exact .finalize hm hc hr hA
  | beginSqueeze =>
    obtain ⟨hm, -⟩ | ⟨hm, hc, hr, A, hA, rfl⟩ := execBeginSqueeze_cases ht
    · exact absurd (by simpa using h) hm
    · exact .beginSqueeze hm hc hr hA
  | squeeze =>
    obtain ⟨hm, -⟩ | ⟨hm, hc, rfl⟩ := execSqueeze_cases ht
    · exact absurd (by simpa using h) hm
    · exact .squeeze hm hc

/-- Everything a command that answers can do: fail with the table's status, or complete. -/
theorem exec_cases {i : Instr} {s t : State} (h : exec i s = .next t) :
    (tableStatus s.mode i ≠ .ok ∧ t = afterFailure (tableStatus s.mode i) s) ∨
    (tableStatus s.mode i = .ok ∧ Completes i s t) := by
  by_cases hE : tableStatus s.mode i = .ok
  · exact .inr ⟨hE, completes_of_tableStatus_ok hE h⟩
  · rw [exec_of_tableStatus_ne_ok hE] at h
    cases h
    exact .inl ⟨hE, rfl⟩

theorem step_of_no_word {s : State} (hc : s.commands = []) : step s = .next s := by
  simp [step, takeCommand_nil hc, waitForCommand]

theorem step_of_legal_word {s : State} {w : CommandWord} {rest : List CommandWord} {i : Instr}
    (hc : s.commands = w :: rest) (hd : decode w = .ok i) :
    step s = exec i { s with commands := rest } := by
  simp [step, takeCommand_cons hc, hd]

theorem step_of_illegal_word {s : State} {w : CommandWord} {rest : List CommandWord} {e : IllegalWord}
    (hc : s.commands = w :: rest) (hd : decode w = .error e) :
    step s = .next (afterFailure .illegalCommand { s with commands := rest }) := by
  simp [step, takeCommand_cons hc, hd, illegalCommand, fail_eq_afterFailure]

/-- Everything a step that answers can do: wait, or take a word and fail or complete. -/
theorem step_next_cases {s t : State} (h : step s = .next t) :
    t = s ∨ ∃ w rest, s.commands = w :: rest ∧
      ((∃ E, E ≠ .ok ∧ t = afterFailure E { s with commands := rest }) ∨
        ∃ i, decode w = .ok i ∧ Completes i { s with commands := rest } t) := by
  obtain ⟨-, hs⟩ | ⟨w, rest, i, hw, hd, hs⟩ | ⟨w, rest, e, hw, -, hs⟩ := step_cases s
  · cases hs.symm.trans h
    exact .inl rfl
  · obtain ⟨hE, ht⟩ | ⟨-, hc⟩ := exec_cases (hs.symm.trans h)
    · exact .inr ⟨w, rest, hw, .inl ⟨_, hE, ht⟩⟩
    · exact .inr ⟨w, rest, hw, .inr ⟨i, hd, hc⟩⟩
  · cases hs.symm.trans h
    exact .inr ⟨w, rest, hw, .inl ⟨.illegalCommand, by decide, rfl⟩⟩

/-! ### What a completed command leaves, field by field -/

namespace Completes
variable {i : Instr} {s t : State}

theorem commands_eq (h : Completes i s t) : t.commands = s.commands := by cases h <;> simp

theorem err_eq (h : Completes i s t) : t.err = s.err := by cases h <;> simp

theorem responses_eq (h : Completes i s t) : ∃ data, t.responses = s.responses ++ [⟨.ok, data⟩] := by
  cases h <;> simp

/-- Only `INIT` writes `OUTLEN` and `RATE` (R24, R25). -/
theorem context_eq (h : Completes i s t) (hi : ∀ L, i ≠ .init L) :
    t.outlen = s.outlen ∧ t.rate = s.rate := by
  cases h with
  | init => exact absurd rfl (hi _)
  | absorb => simp
  | finalize => simp
  | beginSqueeze => simp
  | squeeze => simp

end Completes

theorem exec_commands {i : Instr} {s t : State} (h : exec i s = .next t) :
    t.commands = s.commands := by
  obtain ⟨-, rfl⟩ | ⟨-, hc⟩ := exec_cases h
  · rfl
  · exact hc.commands_eq

theorem exec_outlen_rate {i : Instr} {s t : State} (h : exec i s = .next t)
    (hi : ∀ L, i ≠ .init L) : t.outlen = s.outlen ∧ t.rate = s.rate := by
  obtain ⟨-, rfl⟩ | ⟨-, hc⟩ := exec_cases h
  · exact ⟨rfl, rfl⟩
  · exact hc.context_eq hi

/-! ### `ERR` -/

/-- `ERR` after one more response is the sticky record of R165 on it. -/
theorem resultStatus_append_one (rs : List Response) (r : Response) :
    resultStatus (rs ++ [r]) = recordError r.status (resultStatus rs) := by
  induction rs with
  | nil => by_cases hr : r.status = .ok <;> simp [resultStatus, hr]
  | cons a rs ih =>
    by_cases ha : a.status = .ok
    · simp [resultStatus, ha, ih]
    · simp [resultStatus, ha, recordError_of_ne_ok ha]

/-- A step that answers changes neither the responses nor `ERR`, or adds one response and records its
status. -/
theorem step_records {s t : State} (h : step s = .next t) :
    (t.responses = s.responses ∧ t.err = s.err) ∨
    ∃ r, t.responses = s.responses ++ [r] ∧ t.err = recordError r.status s.err := by
  obtain rfl | ⟨w, rest, -, ⟨E, -, rfl⟩ | ⟨i, -, hc⟩⟩ := step_next_cases h
  · exact .inl ⟨rfl, rfl⟩
  · exact .inr ⟨⟨E, []⟩, rfl, rfl⟩
  · obtain ⟨data, hr⟩ := hc.responses_eq
    exact .inr ⟨⟨.ok, data⟩, hr, by simp [hc.err_eq]⟩

/-- Settles O21: a step adds at most one response, and `ERR` records it as `resultStatus` folds it. -/
theorem errHoldsTheFirstFailure : Obligations.ErrHoldsTheFirstFailure := by
  refine ⟨rfl, fun s t hs h => ?_, fun s t hs h => ?_, fun s => ⟨rfl, rfl⟩⟩
  · obtain ⟨hr, he⟩ | ⟨r, hr, he⟩ := step_records h
    · rw [hr, he, hs]
    · rw [hr, he, hs, resultStatus_append_one]
  · obtain ⟨-, he⟩ | ⟨r, -, he⟩ := step_records h
    · exact he
    · rw [he, recordError_of_ne_ok hs]

/-! ### Legal registers -/

/-- The rate of a legal length leaves room for the digest, and `200 - 2*L` does not wrap (R8, R36). -/
theorem rateOf_of_legalLength {L : Byte} (h : legalLength L = true) :
    (rateOf L).toNat = 200 - 2 * L.toNat ∧ 16 ≤ L.toNat ∧ L.toNat ≤ 64 := by
  simp only [legalLength, Bool.or_eq_true, decide_eq_true_eq] at h
  obtain ((((rfl | rfl) | rfl) | rfl) | rfl) | rfl := h <;> decide

/-- In a context, a cursor inside the block is legal in every mode. -/
theorem inv_of_cursor_lt {s : State} (hm : s.mode ≠ .idle) (hL : legalLength s.outlen = true)
    (hr : s.rate = rateOf s.outlen) (hc : s.cursor < s.rate) : s.Inv :=
  ⟨fun h => absurd h hm, fun _ => ⟨hL, hr⟩, fun _ => hc, fun _ => BitVec.le_of_lt hc⟩

/-- While squeezing, a cursor at the end of the block is legal too (R34). -/
theorem inv_of_squeezing {s : State} (hm : s.mode = .xofSqueezing) (hL : legalLength s.outlen = true)
    (hr : s.rate = rateOf s.outlen) (hc : s.cursor ≤ s.rate) : s.Inv :=
  ⟨fun h => by simp [hm] at h, fun _ => ⟨hL, hr⟩, fun h => by simp [hm] at h, fun _ => hc⟩

/-- Legal registers in a context: the length, the rate and their bounds as numbers. -/
theorem State.Inv.context {s : State} (h : s.Inv) (hm : s.mode ≠ .idle) :
    legalLength s.outlen = true ∧ s.rate = rateOf s.outlen ∧
      72 ≤ s.rate.toNat ∧ s.rate.toNat ≤ 168 ∧ s.outlen.toNat ≤ 64 := by
  obtain ⟨-, hctx, -, -⟩ := h
  obtain ⟨hL, hr⟩ := hctx hm
  have := rateOf_of_legalLength hL
  rw [← hr] at this
  exact ⟨hL, hr, by omega, by omega, by omega⟩

theorem State.Inv.cursor_lt {s : State} (h : s.Inv) (hm : s.mode = .absorbing) :
    s.cursor < s.rate := by
  obtain ⟨-, -, hc, -⟩ := h
  exact hc (.inl hm)

/-- After the deferred permutation the cursor is inside the block (R34). -/
theorem permuteIfUsedUp_cursor_lt {s : State} (hr : 0 < s.rate.toNat) :
    (permuteIfUsedUp s).cursor < s.rate := by
  rw [permuteIfUsedUp_cursor]
  split <;> bv_omega

theorem Completes.keeps_inv {i : Instr} {s t : State} (h : Completes i s t) (hs : s.Inv) : t.Inv := by
  cases h with
  | init hL =>
    have := rateOf_of_legalLength hL
    exact inv_of_cursor_lt (by simp) hL rfl (by simp only [respond_cursor, respond_rate]; bv_omega)
  | absorb hm hc =>
    obtain ⟨hL, hr, -, hle, -⟩ := hs.context (by simp [hm])
    have hlt := hs.cursor_lt hm
    refine inv_of_cursor_lt (by simp [hm]) (by simpa using hL) (by simpa using hr) ?_
    simp only [respond_cursor, respond_rate, permuteIfFull_cursor, permuteIfFull_rate]
    split <;> bv_omega
  | finalize hm =>
    obtain ⟨hL, hr, -⟩ := hs.context (by simp [hm])
    exact inv_of_cursor_lt (by simp) hL hr (hs.cursor_lt hm)
  | beginSqueeze hm =>
    obtain ⟨hL, hr, hpos, -⟩ := hs.context (by simp [hm])
    exact inv_of_cursor_lt (by simp) hL hr (by simp only [respond_cursor, respond_rate]; bv_omega)
  | squeeze hm hc =>
    obtain ⟨hL, hr, hpos, hle, -⟩ := hs.context (by simp [hm])
    have hlt := permuteIfUsedUp_cursor_lt (s := s) (by omega)
    refine inv_of_squeezing (by simp [hm]) (by simpa using hL) (by simpa using hr) ?_
    simp only [respond_cursor, respond_rate, permuteIfUsedUp_rate]
    bv_omega

/-- Settles O25: a failure keeps the registers of the invariant, and so does each completed command. -/
theorem stepKeepsRegistersLegal : Obligations.StepKeepsRegistersLegal := by
  intro s t hs h
  obtain rfl | ⟨w, rest, -, ⟨E, -, rfl⟩ | ⟨i, -, hc⟩⟩ := step_next_cases h
  · exact hs
  · exact hs
  · exact hc.keeps_inv hs

/-! ### The state array of an IDLE core -/

/-- An IDLE core carries its array along unread, or starts a context that does not depend on it (R37,
R111, R162). -/
theorem exec_of_idle (i : Instr) {s : State} (hm : s.mode = .idle) :
    (∃ u : State, u.mode = .idle ∧
      ∀ A, exec i { s with lanes := A } = .next { u with lanes := A }) ∨
    (∃ u : State, ∀ A, exec i { s with lanes := A } = .next u) := by
  by_cases hE : tableStatus s.mode i = .ok
  · cases i with
    | init L =>
      have hL : legalLength L = true := by simpa using hE
      exact .inr ⟨respond .ok [] { s with
        lanes := zeroLanes, outlen := L, rate := rateOf L, cursor := 0, mode := .absorbing },
        fun A => by simp [exec, execInit, hL, respond]⟩
    | absorb | finalize | beginSqueeze | squeeze => simp [hm] at hE
  · exact .inl ⟨afterFailure (tableStatus s.mode i) s, hm,
      fun A => exec_of_tableStatus_ne_ok (s := { s with lanes := A }) hE⟩

/-- The same of a step: an IDLE core that waits or takes an illegal word carries its array along too. -/
theorem step_of_idle {s : State} (hm : s.mode = .idle) :
    (∃ u : State, u.mode = .idle ∧ ∀ A, step { s with lanes := A } = .next { u with lanes := A }) ∨
    (∃ u : State, ∀ A, step { s with lanes := A } = .next u) := by
  by_cases hnil : s.commands = []
  · exact .inl ⟨s, hm, fun A => step_of_no_word (s := { s with lanes := A }) hnil⟩
  · obtain ⟨w, rest, hc⟩ := List.exists_cons_of_ne_nil hnil
    cases hd : decode w with
    | ok i =>
      have hstep (A : Lanes) := step_of_legal_word (s := { s with lanes := A }) hc hd
      simpa only [hstep] using exec_of_idle i (s := { s with commands := rest }) hm
    | error e =>
      exact .inl ⟨afterFailure .illegalCommand { s with commands := rest }, hm,
        fun A => step_of_illegal_word (s := { s with lanes := A }) hc hd⟩

/-- `AgreeUntilInit` by the array that differs: the same state, or an IDLE core with another array. -/
theorem agreeUntilInit_iff {s t : State} :
    AgreeUntilInit s t ↔ t = s ∨ (s.mode = .idle ∧ ∃ A, t = { s with lanes := A }) := by
  constructor
  · rintro ⟨ht, hA⟩
    by_cases hm : s.mode = .idle
    · exact .inr ⟨hm, _, ht⟩
    · rw [hA hm] at ht
      exact .inl ht
  · rintro (rfl | ⟨hm, A, rfl⟩)
    · exact ⟨rfl, fun _ => rfl⟩
    · exact ⟨rfl, fun h => absurd hm h⟩

/-- The host sees no lane (R21, R30). -/
theorem AgreeUntilInit.hostView_eq {s t : State} (h : AgreeUntilInit s t) : hostView t = hostView s := by
  obtain ⟨ht, -⟩ := h
  rw [ht]; rfl

theorem step_keeps_agreeUntilInit {s t s' : State} (h : AgreeUntilInit s t) (hs : step s = .next s') :
    ∃ t', step t = .next t' ∧ AgreeUntilInit s' t' := by
  obtain rfl | ⟨hm, A, rfl⟩ := agreeUntilInit_iff.mp h
  · exact ⟨s', hs, agreeUntilInit_iff.mpr (.inl rfl)⟩
  · obtain ⟨u, hu, hstep⟩ | ⟨u, hstep⟩ := step_of_idle hm
    · cases (hstep s.lanes).symm.trans hs
      exact ⟨_, hstep A, agreeUntilInit_iff.mpr (.inr ⟨hu, A, rfl⟩)⟩
    · cases (hstep s.lanes).symm.trans hs
      exact ⟨_, hstep A, agreeUntilInit_iff.mpr (.inl rfl)⟩

/-- Settles O51: an IDLE core's step does not read the array. -/
theorem stepKeepsTheStateArrayHidden : Obligations.StepKeepsTheStateArrayHidden := by
  intro s t s' h hs
  obtain ⟨t', ht, h'⟩ := step_keeps_agreeUntilInit h hs
  exact ⟨t', ht, h', h'.hostView_eq⟩

theorem run_succ_eq_next {n : Nat} {s t : State} (h : run (n + 1) s = .next t) :
    ∃ u, step s = .next u ∧ run n u = .next t := by
  unfold run at h
  split at h
  · exact ⟨_, ‹_›, h⟩
  · cases h
  · cases h

theorem run_succ_of_step {n : Nat} {s u : State} (h : step s = .next u) : run (n + 1) s = run n u := by
  simp [run, h]

theorem run_keeps_agreeUntilInit {n : Nat} {s t s' : State} (h : AgreeUntilInit s t)
    (hs : run n s = .next s') : ∃ t', run n t = .next t' ∧ AgreeUntilInit s' t' := by
  induction n generalizing s t with
  | zero => cases hs; exact ⟨t, rfl, h⟩
  | succ n ih =>
    obtain ⟨u, hu, hrun⟩ := run_succ_eq_next hs
    obtain ⟨v, hv, huv⟩ := step_keeps_agreeUntilInit h hu
    rw [run_succ_of_step hv]
    exact ih huv hrun

/-- Settles O40: O51's step lemma along a run, from two IDLE cores. -/
theorem resetStateArrayIsUnobservable : Obligations.ResetStateArrayIsUnobservable := by
  intro A ws n t h
  obtain ⟨u, hu, hagree⟩ := run_keeps_agreeUntilInit (agreeUntilInit_iff.mpr (.inr ⟨rfl, A, rfl⟩)) h
  exact ⟨u, hu, hagree.hostView_eq⟩

/-! ### Frames -/

/-- `ABSORB` short of the end of the block writes the byte at the cursor alone; a cursor below 200 does
not wrap. -/
theorem absorb_frame {d : Byte} {s t : State} (h : exec (.absorb d) s = .next t)
    (hend : s.cursor.toNat + 1 ≠ s.rate.toNat) (k : Fin 200) (hk : k.val ≠ s.cursor.toNat) :
    byteAt t.lanes k = byteAt s.lanes k := by
  obtain ⟨-, rfl⟩ | ⟨-, ⟨⟩⟩ := exec_cases h
  · rfl
  case absorb hm hc =>
    have hend' : s.cursor + 1 ≠ s.rate := by bv_omega
    simp only [respond_lanes, permuteIfFull_lanes, if_neg hend', byteAt_xorByte]
    rw [if_neg fun hk' => hk (congrArg Fin.val hk')]

/-- `SQUEEZE` within a block writes no byte. -/
theorem squeeze_frame {s t : State} (h : exec .squeeze s = .next t)
    (hin : s.cursor.toNat < s.rate.toNat) : t.lanes = s.lanes := by
  obtain ⟨-, rfl⟩ | ⟨-, ⟨⟩⟩ := exec_cases h
  · rfl
  case squeeze hm hc =>
    have hin' : ¬s.rate ≤ s.cursor := by bv_omega
    simp [hin']

theorem finalize_cursor {s t : State} (h : exec .finalize s = .next t) : t.cursor = s.cursor := by
  obtain ⟨-, rfl⟩ | ⟨-, ⟨⟩⟩ := exec_cases h <;> rfl

theorem absorb_mode {d : Byte} {s t : State} (h : exec (.absorb d) s = .next t) :
    t.mode = s.mode := by
  obtain ⟨-, rfl⟩ | ⟨-, ⟨⟩⟩ := exec_cases h <;> simp

theorem squeeze_mode {s t : State} (h : exec .squeeze s = .next t) : t.mode = s.mode := by
  obtain ⟨-, rfl⟩ | ⟨-, ⟨⟩⟩ := exec_cases h <;> simp

/-- What the response of a command says about `ERR` and about the registers and bytes (R28, R165). -/
theorem exec_response_frame {i : Instr} {s t : State} (h : exec i s = .next t) :
    ∃ r, t.responses = s.responses ++ [r] ∧
      (r.status = .ok → t.err = s.err) ∧
      (r.status ≠ .ok → (∀ k : Fin 200, byteAt t.lanes k = byteAt s.lanes k) ∧
        t.mode = s.mode ∧ t.outlen = s.outlen ∧ t.rate = s.rate ∧ t.cursor = s.cursor) := by
  obtain ⟨hE, rfl⟩ | ⟨-, hc⟩ := exec_cases h
  · exact ⟨_, rfl, fun hok => absurd hok hE, fun _ => ⟨fun _ => rfl, rfl, rfl, rfl, rfl⟩⟩
  · obtain ⟨data, hr⟩ := hc.responses_eq
    exact ⟨_, hr, fun _ => hc.err_eq, fun hE => absurd rfl hE⟩

/-- Settles O15, from the frame of each command. -/
theorem commandFrames : Obligations.CommandFrames := by
  refine ⟨fun d s t h => absorb_frame h, fun s t h hin k => by rw [squeeze_frame h hin],
    fun i s t h => ⟨exec_commands h, exec_response_frame h, exec_outlen_rate h, ?_, ?_⟩⟩
  · rintro rfl
    exact finalize_cursor h
  · rintro (⟨d, rfl⟩ | rfl)
    · exact absorb_mode h
    · exact squeeze_mode h

/-! ### The capacity -/

/-- `A` and `B` agree on the capacity bytes of a state with this rate (R35). -/
def SameCapacity (rate : Byte) (A B : Lanes) : Prop :=
  ∀ k : Fin 200, rate.toNat ≤ k.val → byteAt B k = byteAt A k

/-- The bytes of `data` stand at indices below the rate in `A` (R35). -/
def FromRatePart (rate : Byte) (A : Lanes) (data : List Byte) : Prop :=
  ∃ ks : List (Fin 200), (∀ k ∈ ks, k.val < rate.toNat) ∧ data = ks.map (byteAt A)

theorem fromRatePart_nil (rate : Byte) (A : Lanes) : FromRatePart rate A [] := ⟨[], by simp, rfl⟩

theorem fromRatePart_byteAt {rate : Byte} (A : Lanes) {k : Fin 200} (hk : k.val < rate.toNat) :
    FromRatePart rate A [byteAt A k] := ⟨[k], by simpa using hk, rfl⟩

theorem fromRatePart_digestBytes {rate n : Byte} (A : Lanes) (h : n.toNat ≤ rate.toNat) :
    FromRatePart rate A (digestBytes A n) := by
  refine ⟨(List.finRange 200).take n.toNat, fun k hk => ?_, rfl⟩
  obtain ⟨j, hj, rfl⟩ := List.mem_take_iff_getElem.mp hk
  simp only [List.getElem_finRange, Fin.val_cast]
  omega

theorem sameCapacity_xorByte {rate : Byte} (A : Lanes) {c : Fin 200} (hc : c.val < rate.toNat)
    (d : Byte) : SameCapacity rate A (xorByte A c d) := by
  intro k hk
  rw [byteAt_xorByte, if_neg]
  rintro rfl
  omega

theorem sameCapacity_padLanes {rate : Byte} (A : Lanes) (suffix : Byte) {c t : Fin 200}
    (hc : c.val < rate.toNat) (ht : t.val < rate.toNat) :
    SameCapacity rate A (padLanes A suffix c t) := by
  intro k hk
  exact (sameCapacity_xorByte _ ht _ k hk).trans (sameCapacity_xorByte _ hc _ k hk)

theorem terminatorIndex_lt {rate : Byte} (h : 0 < rate.toNat) :
    (terminatorIndex rate).toNat < rate.toNat := by
  unfold terminatorIndex; bv_omega

/-- A completed command other than `INIT` writes below the rate, permutes at most once after that, and
emits bytes below the rate. -/
theorem Completes.capacity {i : Instr} {s t : State} (h : Completes i s t) (hs : s.Inv)
    (hi : ∀ L, i ≠ .init L) :
    ∃ B data, SameCapacity s.rate s.lanes B ∧ (t.lanes = B ∨ t.lanes = keccakF B) ∧
      t.responses = s.responses ++ [⟨.ok, data⟩] ∧ FromRatePart s.rate t.lanes data := by
  cases h with
  | init => exact absurd rfl (hi _)
  | @absorb d _ hm hc =>
    have hlt := hs.cursor_lt hm
    refine ⟨_, [], sameCapacity_xorByte s.lanes (c := ⟨_, hc⟩) hlt d, ?_, by simp,
      fromRatePart_nil _ _⟩
    simp only [respond_lanes, permuteIfFull_lanes]
    split <;> simp
  | finalize hm hc ht hA =>
    have hlt := hs.cursor_lt hm
    obtain ⟨-, -, hpos, -, hout⟩ := hs.context (by simp [hm])
    exact ⟨_, _, sameCapacity_padLanes s.lanes sha3Suffix hlt (terminatorIndex_lt (by omega)),
      .inr hA, rfl, fromRatePart_digestBytes _ (by omega)⟩
  | beginSqueeze hm hc ht hA =>
    have hlt := hs.cursor_lt hm
    obtain ⟨-, -, hpos, -⟩ := hs.context (by simp [hm])
    exact ⟨_, [], sameCapacity_padLanes s.lanes shakeSuffix hlt (terminatorIndex_lt (by omega)),
      .inr hA, rfl, fromRatePart_nil _ _⟩
  | squeeze hm hc =>
    obtain ⟨-, -, hpos, -⟩ := hs.context (by simp [hm])
    have hlt := permuteIfUsedUp_cursor_lt (s := s) (by omega)
    refine ⟨s.lanes, _, fun _ _ => rfl, ?_,
      congrArg (· ++ [_]) (permuteIfUsedUp_responses s),
      fromRatePart_byteAt (permuteIfUsedUp s).lanes (k := ⟨_, hc⟩) hlt⟩
    simp only [respond_lanes, permuteIfUsedUp_lanes]
    split <;> simp

/-- Settles O16: a failure writes and emits nothing, and a completed command stays below the rate. -/
theorem capacityIsNeverWrittenDirectly : Obligations.CapacityIsNeverWrittenDirectly := by
  intro i s t hs hi h
  obtain ⟨-, rfl⟩ | ⟨-, hc⟩ := exec_cases h
  · refine ⟨s.lanes, fun _ _ => rfl, .inl rfl, fun r hr => ?_⟩
    obtain rfl : ⟨_, []⟩ = r := by simpa using hr
    exact fromRatePart_nil _ _
  · obtain ⟨B, data, hB, hlanes, hresp, hdata⟩ := hc.capacity hs hi
    refine ⟨B, hB, hlanes, fun r hr => ?_⟩
    obtain rfl : ⟨.ok, data⟩ = r := by simpa [hresp] using hr
    exact hdata

/-! ### `RATE` -/

theorem withoutOperand_eq_ok {imm : Byte} {i j : Instr} (h : withoutOperand imm i = .ok j) :
    imm = 0 ∧ j = i := by
  unfold withoutOperand at h
  split at h
  · cases h; exact ⟨‹_›, rfl⟩
  · cases h

/-- A word that decodes to a command is that command's word (R61, R65). -/
theorem encode_of_decode {w : CommandWord} {i : Instr} (h : decode w = .ok i) : encode i = w := by
  unfold decode at h
  split at h
  · cases h
  have hw := assembleWord_of_rsvField (not_not.mp ‹_›)
  split at h
  next h1 =>
    cases h
    rwa [h1] at hw
  split at h
  next h2 =>
    cases h
    rwa [h2] at hw
  split at h
  next h3 =>
    obtain ⟨h0, rfl⟩ := withoutOperand_eq_ok h
    rwa [h3, h0] at hw
  split at h
  next h4 =>
    obtain ⟨h0, rfl⟩ := withoutOperand_eq_ok h
    rwa [h4, h0] at hw
  split at h
  next h5 =>
    obtain ⟨h0, rfl⟩ := withoutOperand_eq_ok h
    rwa [h5, h0] at hw
  · cases h

/-- Settles O27: a completed `INIT` sets the context, and no other command changes `RATE`. -/
theorem onlyInitWritesRate : Obligations.OnlyInitWritesRate := by
  refine ⟨fun L s t h hr => ?_, fun s t h hne => ?_⟩
  · obtain ⟨hE, rfl⟩ | ⟨-, ⟨⟩⟩ := exec_cases h
    · exact absurd (by simpa using hr) hE
    case init hL => exact ⟨rfl, (rateOf_of_legalLength hL).1⟩
  · obtain rfl | ⟨w, rest, hw, ⟨E, -, rfl⟩ | ⟨i, hd, hc⟩⟩ := step_next_cases h
    · exact absurd rfl hne
    · exact absurd rfl hne
    · cases i with
      | init L =>
        obtain rfl := encode_of_decode hd
        cases hc
        exact ⟨L, rest, hw, rfl, rfl⟩
      | absorb | finalize | beginSqueeze | squeeze =>
        exact absurd (hc.context_eq nofun).2 hne

/-! ### Reset and the status output -/

/-- Settles O23: reset and the reset input set every register (R38, R190). -/
theorem resetValuesOfTheRegisters : Obligations.ResetValuesOfTheRegisters :=
  ⟨rfl, rfl, rfl, rfl, rfl, rfl, rfl, fun _ => ⟨rfl, rfl, rfl, rfl, rfl, rfl⟩⟩

/-- Settles O24: at reset the core is IDLE and its context registers are zero. -/
theorem registersLegalAtReset : Obligations.RegistersLegalAtReset :=
  ⟨fun _ => ⟨rfl, rfl, rfl⟩, nofun, nofun, nofun⟩

/-- Settles O50: the reset input keeps the host's words (log entry 2). -/
theorem resetLeavesTheHostItsWords : Obligations.ResetLeavesTheHostItsWords :=
  ⟨rfl, resetCore_commands⟩

/-- Settles O29: the status output is the two codes side by side (R30). -/
theorem statusOutputLayout : Obligations.StatusOutputLayout := by
  refine ⟨fun s => ⟨?_, ?_⟩, ⟨rfl, rfl, rfl, rfl⟩, rfl, rfl, rfl, rfl⟩
  · exact BitVec.extractLsb'_append_eq_right
  · exact BitVec.extractLsb'_append_eq_left

end Sys2Proof.Machine

/-! The byte view, the stop at an absent byte, and sequences of commands (`20_memory.md`). -/

namespace Sys2Proof.Machine

/-! ### The byte view and the lane view -/

@[simp] theorem get_lanesToBytes (A : Lanes) (k : Fin 200) : (lanesToBytes A).get k = byteAt A k := by
  simp [lanesToBytes, Vector.get_eq_getElem]

theorem lanesToBytes_bytesToLanes (S : Vector Byte 200) : lanesToBytes (bytesToLanes S) = S := by
  apply Vector.ext
  intro k hk
  exact (get_lanesToBytes _ ⟨k, hk⟩).trans (byteAt_bytesToLanes S ⟨k, hk⟩)

theorem bytesToLanes_lanesToBytes (A : Lanes) : bytesToLanes (lanesToBytes A) = A :=
  lanes_ext_of_bytes fun k => (byteAt_bytesToLanes _ k).trans (get_lanesToBytes A k)

/-- Settles O31: a byte read back from packed lanes is the byte packed, and bytes determine lanes. -/
theorem byteAndLaneViewsRoundTrip : Obligations.ByteAndLaneViewsRoundTrip :=
  ⟨lanesToBytes_bytesToLanes, bytesToLanes_lanesToBytes⟩

theorem byteOfLane_lanesToBytes (A : Lanes) (i : Fin 25) (j : Fin 8) :
    byteOfLane (lanesToBytes A) i j = byteAt A (Fin.ofNat 200 (8 * i.val + j.val)) := by
  have hlt : 8 * i.val + j.val < 200 := by omega
  rw [byteOfLane, get_lanesToBytes]
  exact congrArg (byteAt A) (Fin.ext (Nat.mod_eq_of_lt hlt).symm)

theorem get_bytesToLanes (S : Vector Byte 200) (i : Fin 25) :
    (bytesToLanes S).get i =
      byteOfLane S i 7 ++ byteOfLane S i 6 ++ byteOfLane S i 5 ++ byteOfLane S i 4 ++
        byteOfLane S i 3 ++ byteOfLane S i 2 ++ byteOfLane S i 1 ++ byteOfLane S i 0 := by
  simp [bytesToLanes, Vector.get_eq_getElem]

/-- Settles O32: a lane is the one packed from the array's own bytes. -/
theorem lanePackingIsLittleEndian : Obligations.LanePackingIsLittleEndian := by
  intro A i
  have h := get_bytesToLanes (lanesToBytes A) i
  rw [bytesToLanes_lanesToBytes] at h
  simp only [byteOfLane_lanesToBytes] at h
  exact h

/-! ### When a command answers -/

theorem withIndex_answers_iff {k : Byte} {go : Fin 200 → Host.Outcome State Fault Refusal} :
    (∃ t, withIndex k go = .next t) ↔ ∃ hk : k.toNat < 200, ∃ t, go ⟨k.toNat, hk⟩ = .next t := by
  constructor
  · rintro ⟨t, h⟩
    obtain ⟨hk, ht⟩ := withIndex_eq_next h
    exact ⟨hk, t, ht⟩
  · rintro ⟨hk, t, ht⟩
    exact ⟨t, (withIndex_of_lt hk go).trans ht⟩

theorem withDigestRange_answers_iff {n : Byte} {r : Host.Outcome State Fault Refusal} :
    (∃ t, withDigestRange n r = .next t) ↔ n.toNat ≤ 200 ∧ ∃ t, r = .next t := by
  constructor
  · rintro ⟨t, h⟩
    obtain ⟨hn, ht⟩ := withDigestRange_eq_next h
    exact ⟨hn, t, ht⟩
  · rintro ⟨hn, t, ht⟩
    exact ⟨t, (withDigestRange_of_le hn r).trans ht⟩

/-- A state has the terminator byte exactly if its rate is 1 to 200: a rate of 0 wraps (R41). -/
theorem terminatorIndex_lt_200_iff {rate : Byte} :
    (terminatorIndex rate).toNat < 200 ↔ 1 ≤ rate.toNat ∧ rate.toNat ≤ 200 := by
  unfold terminatorIndex; bv_omega

theorem permuteIfUsedUp_cursor_lt_200_iff {s : State} :
    (permuteIfUsedUp s).cursor.toNat < 200 ↔
      s.rate.toNat ≤ s.cursor.toNat ∨ s.cursor.toNat < 200 := by
  rw [permuteIfUsedUp_cursor, ← BitVec.le_def]
  split <;> simp [*]

/-- A command the lifecycle table refuses answers (R165), so only the accepting mode is in question. -/
theorem exec_answers_iff_of_accepting {i : Instr} {s : State} {P : Prop}
    (h : tableStatus s.mode i = .ok → ((∃ t, exec i s = .next t) ↔ P)) :
    (∃ t, exec i s = .next t) ↔ (tableStatus s.mode i = .ok → P) := by
  by_cases hE : tableStatus s.mode i = .ok
  · simp [hE, h hE]
  · simp [hE, exec_of_tableStatus_ne_ok hE]

section Answers
variable {s : State}

theorem exec_init_answers (L : Byte) (s : State) : ∃ t, exec (.init L) s = .next t := by
  obtain ⟨-, h⟩ | ⟨-, h⟩ := execInit_cases L s
  · exact ⟨_, h⟩
  · exact ⟨_, h.trans (fail_eq _ _)⟩

theorem exec_absorb_answers_iff (d : Byte) (hm : s.mode = .absorbing) :
    (∃ t, exec (.absorb d) s = .next t) ↔ s.cursor.toNat < 200 := by
  simp [exec, execAbsorb, hm, withIndex_answers_iff]

theorem exec_finalize_answers_iff (hm : s.mode = .absorbing) :
    (∃ t, exec .finalize s = .next t) ↔
      s.cursor.toNat < 200 ∧ (terminatorIndex s.rate).toNat < 200 ∧ s.outlen.toNat ≤ 200 := by
  simp [exec, execFinalize, hm, withIndex_answers_iff, withDigestRange_answers_iff, and_left_comm]

theorem exec_beginSqueeze_answers_iff (hm : s.mode = .absorbing) :
    (∃ t, exec .beginSqueeze s = .next t) ↔
      s.cursor.toNat < 200 ∧ (terminatorIndex s.rate).toNat < 200 := by
  simp [exec, execBeginSqueeze, hm, withIndex_answers_iff]

theorem exec_squeeze_answers_iff (hm : s.mode = .xofSqueezing) :
    (∃ t, exec .squeeze s = .next t) ↔ (permuteIfUsedUp s).cursor.toNat < 200 := by
  simp [exec, execSqueeze, hm, withIndex_answers_iff, -permuteIfUsedUp_cursor]

end Answers

/-- Settles O14: the index checks a command passes are those of its implicit bytes. -/
theorem onlyAbsentBytesStopACommand : Obligations.OnlyAbsentBytesStopACommand := by
  intro i s
  cases i with
  | init L => simpa using exec_init_answers L s
  | absorb d =>
    simpa using exec_answers_iff_of_accepting (i := .absorb d) fun hok =>
      exec_absorb_answers_iff d (s := s) (by simpa using hok)
  | finalize =>
    simpa [terminatorIndex_lt_200_iff, and_assoc] using
      exec_answers_iff_of_accepting (i := .finalize) fun hok =>
        exec_finalize_answers_iff (s := s) (by simpa using hok)
  | beginSqueeze =>
    simpa [terminatorIndex_lt_200_iff] using
      exec_answers_iff_of_accepting (i := .beginSqueeze) fun hok =>
        exec_beginSqueeze_answers_iff (s := s) (by simpa using hok)
  | squeeze =>
    have h := exec_answers_iff_of_accepting (i := .squeeze) fun hok =>
      exec_squeeze_answers_iff (s := s) (by simpa using hok)
    rw [permuteIfUsedUp_cursor_lt_200_iff] at h
    simpa using h

/-- In an ABSORBING state with legal registers the cursor and the terminator are bytes of the state. -/
theorem State.Inv.padding_bounds {s : State} (h : s.Inv) (hm : s.mode = .absorbing) :
    s.cursor.toNat < 200 ∧ 1 ≤ s.rate.toNat ∧ s.rate.toNat ≤ 200 := by
  have hlt := h.cursor_lt hm
  obtain ⟨-, -, hpos, hle, -⟩ := h.context (by simp [hm])
  exact ⟨by bv_omega, by omega, by omega⟩

/-- With legal registers every implicit byte exists (R42). -/
theorem exec_answers_of_inv (i : Instr) {s : State} (hs : s.Inv) : ∃ t, exec i s = .next t := by
  rw [onlyAbsentBytesStopACommand i s]
  cases i with
  | init L => trivial
  | absorb d =>
    intro hm
    obtain ⟨hc, -⟩ := hs.padding_bounds hm
    exact hc
  | finalize =>
    intro hm
    obtain ⟨hc, hpos, hle⟩ := hs.padding_bounds hm
    obtain ⟨-, -, -, -, hout⟩ := hs.context (by simp [hm])
    exact ⟨hc, hpos, hle, by omega⟩
  | beginSqueeze => exact hs.padding_bounds
  | squeeze =>
    intro hm
    obtain ⟨-, -, -, hle, -⟩ := hs.context (by simp [hm])
    omega

/-- Settles O26: a step waits, runs a command from legal registers, or answers an illegal word. -/
theorem legalRegistersNeverStop : Obligations.LegalRegistersNeverStop := by
  intro s hs
  obtain ⟨-, h⟩ | ⟨w, rest, i, -, -, h⟩ | ⟨w, rest, e, -, -, h⟩ := step_cases s
  · exact ⟨s, h⟩
  · rw [h]
    exact exec_answers_of_inv i hs
  · exact ⟨_, h.trans (illegalCommand_eq _)⟩

/-! ### A step and its word -/

theorem decode_of_decodeTableWord {n w : Nat} {i : Instr} (h : decodeTableWord n w = some i) :
    decode (commandWordOf n w) = .ok i := by
  unfold decodeTableWord at h
  cases hd : decode (commandWordOf n w) with
  | ok j =>
    rw [hd] at h
    cases h
    rfl
  | error e =>
    rw [hd] at h
    cases h

/-- Settles O5: the step takes the first word of the list, also one just placed there. -/
theorem stepRunsTheDecodedCommand : Obligations.StepRunsTheDecodedCommand :=
  ⟨fun _ _ _ _ => step_of_legal_word,
    fun s w _ h => step_of_legal_word (s := s.withFetchWord 16 w) rfl (decode_of_decodeTableWord h)⟩

/-- A step that takes a word leaves the words after it and adds one response (R54, R55). -/
theorem step_takes_word {s t : State} {w : CommandWord} {rest : List CommandWord}
    (hw : s.commands = w :: rest) (h : step s = .next t) :
    t.commands = rest ∧ ∃ r, t.responses = s.responses ++ [r] := by
  cases hd : decode w with
  | ok i =>
    rw [step_of_legal_word hw hd] at h
    obtain ⟨r, hr, -⟩ := exec_response_frame h
    exact ⟨exec_commands h, r, hr⟩
  | error e =>
    cases (step_of_illegal_word hw hd).symm.trans h
    exact ⟨rfl, _, rfl⟩

/-- Settles O38: by induction on the words; each step takes one, answers it and keeps the registers
legal. -/
theorem everyIssuedCommandIsAnswered : Obligations.EveryIssuedCommandIsAnswered := by
  intro s hs
  induction hw : s.commands generalizing s with
  | nil => exact ⟨s, [], rfl, hw, by simp, rfl, by simp⟩
  | cons w ws ih =>
    obtain ⟨v, hv⟩ := legalRegistersNeverStop s hs
    obtain ⟨hvw, r, hr⟩ := step_takes_word hw hv
    obtain ⟨t, rs, hrun, htw, htr, hlen, hall⟩ := ih v (stepKeepsRegistersLegal s v hs hv) hvw
    refine ⟨t, r :: rs, (run_succ_of_step hv).trans hrun, htw, by simp [htr, hr], by simp [hlen],
      fun k x hx => ?_⟩
    cases k with
    | zero =>
      obtain rfl : w = x := by simpa using hx
      exact ⟨s, v, ws, r, rfl, rfl, hw, by simp, hv, hr⟩
    | succ k =>
      obtain ⟨u, u', rest, q, hq, hu, huw, hur, hstep, hu'⟩ := hall k x (by simpa using hx)
      exact ⟨u, u', rest, q, by simpa using hq, (run_succ_of_step hv).trans hu, huw,
        by simp [hur, hr], hstep, hu'⟩

/-! ### The host's side of the state -/

/-- The core with another host: other words to issue and other earlier responses (R29, R55). -/
def withHost (cs : List CommandWord) (rs : List Response) (s : State) : State :=
  { s with commands := cs, responses := rs }

section WithHost
variable (cs : List CommandWord) (rs : List Response) (s : State)

theorem permuteIfFull_withHost :
    permuteIfFull (withHost cs rs s) = withHost cs rs (permuteIfFull s) :=
  (apply_ite (withHost cs rs) (s.cursor = s.rate) { permute s with cursor := 0 } s).symm

theorem permuteIfUsedUp_withHost :
    permuteIfUsedUp (withHost cs rs s) = withHost cs rs (permuteIfUsedUp s) :=
  (apply_ite (withHost cs rs) (s.rate ≤ s.cursor) { permute s with cursor := 0 } s).symm

end WithHost

/-- A command answers or stops whatever the host's side holds: its index checks read the core alone. -/
theorem exec_withHost_answers {i : Instr} {s t : State} (h : exec i s = .next t)
    (cs : List CommandWord) (rs : List Response) : ∃ u, exec i (withHost cs rs s) = .next u := by
  have hs := (onlyAbsentBytesStopACommand i s).mp ⟨t, h⟩
  exact (onlyAbsentBytesStopACommand i (withHost cs rs s)).mpr hs

/-- A completed command does the same to the core beside any host, and adds the same response. -/
theorem Completes.eq_withHost {i : Instr} {s t u : State} {cs : List CommandWord}
    {rs : List Response} (h : Completes i s t) (hu : Completes i (withHost cs rs s) u) :
    ∃ r, t.responses = s.responses ++ [r] ∧ u = withHost cs (rs ++ [r]) t := by
  cases h with
  | init => cases hu; exact ⟨_, rfl, rfl⟩
  | @absorb d _ hm hc =>
    cases hu
    exact ⟨_, by simp, congrArg (respond .ok []) (permuteIfFull_withHost cs rs
      { s with lanes := xorByte s.lanes ⟨_, hc⟩ d, cursor := s.cursor + 1 })⟩
  | finalize hm hc ht hA =>
    cases hu with
    | finalize _ _ _ hA' =>
      obtain rfl := hA.trans hA'.symm
      exact ⟨_, rfl, rfl⟩
  | beginSqueeze hm hc ht hA =>
    cases hu with
    | beginSqueeze _ _ _ hA' =>
      obtain rfl := hA.trans hA'.symm
      exact ⟨_, rfl, rfl⟩
  | squeeze hm hc =>
    cases hu
    refine ⟨_, congrArg (· ++ [_]) (permuteIfUsedUp_responses s), ?_⟩
    simp only [permuteIfUsedUp_withHost]
    rfl

/-- Settles O39: a refused command answers the table's status whatever the host holds, and an accepted
one completes alike. -/
theorem commandsAreFunctionsOfCoreAndWord : Obligations.CommandsAreFunctionsOfCoreAndWord := by
  intro i s t cs rs h
  obtain ⟨hE, rfl⟩ | ⟨hok, hc⟩ := exec_cases h
  · exact ⟨_, rfl, exec_of_tableStatus_ne_ok (s := withHost cs rs s) hE⟩
  · obtain ⟨u, hu⟩ := exec_withHost_answers h cs rs
    obtain ⟨r, hr, rfl⟩ := hc.eq_withHost (cs := cs) (rs := rs) (completes_of_tableStatus_ok hok hu)
    exact ⟨r, hr, hu⟩

/-! ### Runs -/

/-- A step that takes a word does not see the words after it (R53). -/
theorem step_append_words {s t : State} (more : List CommandWord) (hw : s.commands ≠ [])
    (h : step s = .next t) :
    step { s with commands := s.commands ++ more } =
      .next { t with commands := t.commands ++ more } := by
  obtain ⟨w, rest, hw⟩ := List.exists_cons_of_ne_nil hw
  have hw' : s.commands ++ more = w :: (rest ++ more) := by simp [hw]
  obtain ⟨hrest, -⟩ := step_takes_word hw h
  rw [hrest]
  cases hd : decode w with
  | ok i =>
    rw [step_of_legal_word hw hd] at h
    obtain ⟨r, hr, hexec⟩ :=
      commandsAreFunctionsOfCoreAndWord i _ t (rest ++ more) s.responses h
    rw [← hr] at hexec
    exact (step_of_legal_word hw' hd).trans hexec
  | error e =>
    cases (step_of_illegal_word hw hd).symm.trans h
    exact step_of_illegal_word (s := { s with commands := s.commands ++ more }) hw' hd

/-- A run that takes the words of the list one by one ends with the words left that stood after them. -/
theorem run_append_words {s t : State} {ws : List CommandWord} (more : List CommandWord)
    (hw : s.commands = ws) (h : run ws.length s = .next t) :
    run ws.length { s with commands := ws ++ more } = .next { t with commands := more } := by
  induction ws generalizing s with
  | nil => cases h; rfl
  | cons w ws ih =>
    obtain ⟨u, hu, hrun⟩ := run_succ_eq_next h
    obtain ⟨huw, -⟩ := step_takes_word hw hu
    have hstep := step_append_words more (by simp [hw]) hu
    rw [hw, huw] at hstep
    exact (run_succ_of_step hstep).trans (ih huw hrun)

theorem run_add {m : Nat} (n : Nat) {s t : State} (h : run m s = .next t) :
    run (m + n) s = run n t := by
  induction m generalizing s with
  | zero => cases h; rw [Nat.zero_add]
  | succ m ih =>
    obtain ⟨u, hu, hrun⟩ := run_succ_eq_next h
    rw [Nat.succ_add, run_succ_of_step hu, ih hrun]

/-- Settles O37: no step of the first run sees the later words, and runs compose. -/
theorem commandsComposeInOrder : Obligations.CommandsComposeInOrder := by
  intro s t ws more h
  have hrun := run_append_words (s := { s with commands := ws }) more rfl h
  exact ⟨hrun, run_add more.length hrun⟩

end Sys2Proof.Machine

/-! Encoding: the words as numbers, the response of every word taken, and the assembler
(`30_encoding.md`). -/

namespace Sys2Proof.Machine

/-! ### Decoding is the inverse of encoding -/

/-- The decoder gives back the command a word was encoded from (R61, R65). -/
theorem decode_encode (i : Instr) : decode (encode i) = .ok i := by
  cases i <;> simp [encode, decode]

theorem decode_eq_ok_iff {w : CommandWord} {i : Instr} : decode w = .ok i ↔ encode i = w :=
  ⟨encode_of_decode, fun h => h ▸ decode_encode i⟩

/-- Settles O1: a word that decodes is its fields put together, and the fields of an encoding are those it
was put together from. -/
theorem decodeInvertsEncodeOnEveryWord : Obligations.DecodeInvertsEncodeOnEveryWord :=
  fun _ _ => decode_eq_ok_iff

/-! ### Command words as numbers -/

/-- The fields of a word with `RSV = 0` as digits of its number (R61). -/
theorem toNat_assembleWord (opc : BitVec 4) (imm : Byte) :
    (assembleWord opc imm).toNat = 4096 * opc.toNat + imm.toNat := by
  have hopc : (opc ++ (0 : BitVec 4)).toNat = opc.toNat <<< 4 :=
    (BitVec.toNat_append opc 0).trans (Nat.or_zero _)
  rw [assembleWord, BitVec.toNat_append, hopc, ← Nat.shiftLeft_add_eq_or_of_lt imm.isLt,
    ← Nat.shiftLeft_add, Nat.shiftLeft_eq]
  omega

/-- A number that fits the operand field stands in it unchanged (R62). -/
theorem assembleWord_ofNat (opc : BitVec 4) {n : Nat} (hn : n ≤ 255) :
    assembleWord opc (.ofNat 8 n) = .ofNat 16 (4096 * opc.toNat + n) := by
  apply BitVec.eq_of_toNat_eq
  rw [toNat_assembleWord, BitVec.toNat_ofNat, BitVec.toNat_ofNat]
  omega

theorem toNat_encode_init (L : Byte) : (encode (.init L)).toNat = 0x1000 + L.toNat :=
  toNat_assembleWord 1 L

theorem toNat_encode_absorb (d : Byte) : (encode (.absorb d)).toNat = 0x2000 + d.toNat :=
  toNat_assembleWord 2 d

/-- The mask `0xFF00` clears the low byte of a word. -/
theorem toNat_and_operandMask (w : CommandWord) :
    (w &&& (0xFF00 : CommandWord)).toNat = w.toNat / 256 * 256 := by
  have hmask : (0xFF00 : CommandWord) = BitVec.allOnes 16 <<< 8 := by decide
  rw [hmask, ← BitVec.shiftLeft_ushiftRight, BitVec.toNat_shiftLeft, BitVec.toNat_ushiftRight,
    Nat.shiftLeft_eq, Nat.shiftRight_eq_div_pow]
  omega

/-- The high byte of a word as a number says whether an opcode with a free operand gives it. -/
theorem exists_assembleWord_iff (opc : BitVec 4) (w : CommandWord) :
    (∃ imm, assembleWord opc imm = w) ↔ w.toNat / 256 = 16 * opc.toNat := by
  constructor
  · rintro ⟨imm, rfl⟩
    rw [toNat_assembleWord]
    omega
  · intro h
    refine ⟨w.setWidth 8, BitVec.eq_of_toNat_eq ?_⟩
    rw [toNat_assembleWord, BitVec.toNat_setWidth]
    omega

theorem exists_decode_init_iff (w : CommandWord) :
    (∃ L, decode w = .ok (.init L)) ↔ w.toNat / 256 = 0x10 := by
  simp only [decode_eq_ok_iff]
  exact exists_assembleWord_iff 1 w

theorem exists_decode_absorb_iff (w : CommandWord) :
    (∃ d, decode w = .ok (.absorb d)) ↔ w.toNat / 256 = 0x20 := by
  simp only [decode_eq_ok_iff]
  exact exists_assembleWord_iff 2 w

theorem and_operandMask_eq_iff (w : CommandWord) (opc : BitVec 4) :
    w &&& (0xFF00 : CommandWord) = assembleWord opc 0 ↔ w.toNat / 256 = 16 * opc.toNat := by
  have hzero : (0 : Byte).toNat = 0 := rfl
  rw [← BitVec.toNat_inj, toNat_and_operandMask, toNat_assembleWord, hzero]
  omega

theorem decode_eq_finalize_iff (w : CommandWord) : decode w = .ok .finalize ↔ w = 0x3000 :=
  decode_eq_ok_iff.trans eq_comm

theorem decode_eq_beginSqueeze_iff (w : CommandWord) : decode w = .ok .beginSqueeze ↔ w = 0x4000 :=
  decode_eq_ok_iff.trans eq_comm

theorem decode_eq_squeeze_iff (w : CommandWord) : decode w = .ok .squeeze ↔ w = 0x5000 :=
  decode_eq_ok_iff.trans eq_comm

/-- The legal words, row by row of the opcode map (R63). -/
theorem exists_decode_ok_iff (w : CommandWord) :
    (∃ i, decode w = .ok i) ↔
      (∃ L, decode w = .ok (.init L)) ∨ (∃ d, decode w = .ok (.absorb d)) ∨
        decode w = .ok .finalize ∨ decode w = .ok .beginSqueeze ∨ decode w = .ok .squeeze := by
  constructor
  · rintro ⟨i, h⟩
    cases i with
    | init L => exact .inl ⟨L, h⟩
    | absorb d => exact .inr (.inl ⟨d, h⟩)
    | finalize => exact .inr (.inr (.inl h))
    | beginSqueeze => exact .inr (.inr (.inr (.inl h)))
    | squeeze => exact .inr (.inr (.inr (.inr h)))
  · rintro (⟨L, h⟩ | ⟨d, h⟩ | h | h | h) <;> exact ⟨_, h⟩

theorem exists_decode_error_iff_not_ok (w : CommandWord) :
    (∃ e, decode w = .error e) ↔ ¬∃ i, decode w = .ok i := by
  cases decode w <;> simp

/-- The illegal words by their fields as numbers (R64). -/
theorem exists_decode_error_iff (w : CommandWord) :
    (∃ e, decode w = .error e) ↔
      (w.toNat / 4096 = 0 ∨ 6 ≤ w.toNat / 4096) ∨ w.toNat / 256 % 16 ≠ 0 ∨
        ((w.toNat / 4096 = 3 ∨ w.toNat / 4096 = 4 ∨ w.toNat / 4096 = 5) ∧ w.toNat % 256 ≠ 0) := by
  rw [exists_decode_error_iff_not_ok, exists_decode_ok_iff, exists_decode_init_iff,
    exists_decode_absorb_iff, decode_eq_finalize_iff, decode_eq_beginSqueeze_iff, decode_eq_squeeze_iff]
  bv_omega

/-- An `INIT` word is `0x1000` with the length in its low byte, whatever the length (R63). -/
theorem encode_init_eq_or (L : Byte) : encode (.init L) = 0x1000 ||| L.setWidth 16 := by
  rw [encode, assembleWord, BitVec.append_def, BitVec.setWidth'_eq]
  rfl

theorem legalLength_eq_false_of_notMem {L : Byte} (h : L ∉ [16, 20, 28, 32, 48, 64]) :
    legalLength L = false := by
  simpa [legalLength, and_assoc] using h

/-- Settles O2: the legal words are those of the opcode map's rows, and neither failure changes anything but
`ERR` (R165). -/
theorem illegalWordsAreThoseOfTheRule : Obligations.IllegalWordsAreThoseOfTheRule := by
  refine ⟨exists_decode_error_iff, fun _ _ _ _ => step_of_illegal_word, fun L => ?_, fun L s hL => ?_⟩
  · exact decode_eq_ok_iff.mpr (encode_init_eq_or L)
  · have hE : tableStatus s.mode (.init L) = .invalidParameter := by
      simp [legalLength_eq_false_of_notMem hL]
    rw [exec_of_tableStatus_ne_ok (by simp [hE]), hE]

/-- Settles O3: each row of the opcode map by its number, and the word it decodes from. -/
theorem opcodeMapMatchesUnderMask : Obligations.OpcodeMapMatchesUnderMask := by
  refine ⟨fun w => ?_, fun w L h => ?_, fun w => ?_, fun w d h => ?_, decode_eq_finalize_iff,
    decode_eq_beginSqueeze_iff, decode_eq_squeeze_iff,
    fun w h => (exists_decode_error_iff w).mpr (.inl h)⟩
  · exact (exists_decode_init_iff w).trans (and_operandMask_eq_iff w 1).symm
  · rw [← encode_of_decode h, toNat_encode_init]
    omega
  · exact (exists_decode_absorb_iff w).trans (and_operandMask_eq_iff w 2).symm
  · rw [← encode_of_decode h, toNat_encode_absorb]
    omega

/-- Settles O4: five written words are encodings, and each of the other three breaks one rule of R64. -/
theorem writtenWordsDecode : Obligations.WrittenWordsDecode :=
  ⟨decode_encode (.init 32), decode_encode (.absorb 0x61), decode_encode .finalize,
    decode_encode .beginSqueeze, decode_encode .squeeze, by decide, by decide, by decide⟩

/-! ### The response to a word -/

@[simp] theorem length_digestBytes (A : Lanes) (n : Byte) :
    (digestBytes A n).length = min n.toNat 200 := by
  simp [digestBytes]

/-- A command that completes answers OK with as many bytes as the table of R67 gives it. -/
theorem Completes.response {i : Instr} {s t : State} (h : Completes i s t)
    (ho : i = .finalize → s.outlen.toNat ≤ 200) :
    ∃ data, t.responses = s.responses ++ [⟨.ok, data⟩] ∧ data.length = tableDataLength s.outlen i := by
  cases h with
  | init | absorb | beginSqueeze | squeeze => simp [tableDataLength]
  | finalize => simpa [tableDataLength] using ho

/-- A command that answers adds one response, with data only if it answers OK (R67, R165). -/
theorem exec_response {i : Instr} {s t : State} (h : exec i s = .next t) :
    ∃ r, t.responses = s.responses ++ [r] ∧
      r.data.length = if r.status = .ok then tableDataLength s.outlen i else 0 := by
  obtain ⟨hE, rfl⟩ | ⟨hE, hc⟩ := exec_cases h
  · exact ⟨_, rfl, (if_neg hE).symm⟩
  · have ho : i = .finalize → s.outlen.toNat ≤ 200 := by
      rintro rfl
      have hm : s.mode = .absorbing := by simpa using hE
      obtain ⟨-, -, ho⟩ := (exec_finalize_answers_iff hm).mp ⟨t, h⟩
      exact ho
    obtain ⟨data, hr, hlen⟩ := hc.response ho
    exact ⟨_, hr, hlen⟩

/-- Settles O20: the word is taken in either case, and the response is the command's or the failure's. -/
theorem everyCommandIsAnsweredOnce : Obligations.EveryCommandIsAnsweredOnce := by
  refine ⟨⟨rfl, rfl, rfl, rfl⟩, fun s t w rest hw h => ?_⟩
  obtain ⟨hrest, -⟩ := step_takes_word hw h
  cases hd : decode w with
  | ok i =>
    rw [step_of_legal_word hw hd] at h
    obtain ⟨r, hr, hlen⟩ := exec_response h
    exact ⟨r, hr, hrest, hlen⟩
  | error e =>
    cases (step_of_illegal_word hw hd).symm.trans h
    exact ⟨_, rfl, rfl, rfl⟩

/-! ### The assembler -/

theorem wellFormed_init {L : Nat} : (AsmLine.init L).wellFormed = true ↔ L ≤ 255 := decide_eq_true_iff

theorem wellFormed_absorb {b : Nat} : (AsmLine.absorb b).wellFormed = true ↔ b ≤ 255 :=
  decide_eq_true_iff

theorem wellFormed_absorbChar {c : Char} : (AsmLine.absorbChar c).wellFormed = true ↔ c.toNat ≤ 127 :=
  decide_eq_true_iff

theorem wellFormed_word {w : Nat} : (AsmLine.word w).wellFormed = true ↔ w ≤ 0xFFFF :=
  decide_eq_true_iff

theorem wellFormed_hash {L : Nat} {m : List Byte} : (AsmLine.hash L m).wellFormed = true ↔ L ≤ 255 :=
  decide_eq_true_iff

theorem assemble_of_wellFormed {line : AsmLine} (h : line.wellFormed = true) :
    assemble line = .ok (expand line) := if_pos h

theorem assemble_of_not_wellFormed {line : AsmLine} (h : ¬line.wellFormed = true) :
    assemble line = .error .operandOutOfRange := if_neg h

theorem assembleAll_cons_of_not_wellFormed {line : AsmLine} (h : ¬line.wellFormed = true)
    (lines : List AsmLine) : assembleAll (line :: lines) = .error .operandOutOfRange := by
  simp only [assembleAll, assemble_of_not_wellFormed h]

/-- Well-formed lines assemble to their words, one line after the other. -/
theorem assembleAll_of_wellFormed {lines : List AsmLine} (h : ∀ line ∈ lines, line.wellFormed = true) :
    assembleAll lines = .ok (lines.flatMap expand) := by
  induction lines with
  | nil => rfl
  | cons line lines ih =>
    rw [List.forall_mem_cons] at h
    obtain ⟨hline, hlines⟩ := h
    simp only [assembleAll, assemble_of_wellFormed hline, ih hlines, List.flatMap_cons]

/-- Settles O46: an operand in range is the low byte, or the whole word, of the number. -/
theorem assemblerFormsAndOperandRanges : Obligations.AssemblerFormsAndOperandRanges := by
  refine ⟨fun L hL => ?_, fun b hb => ?_, fun c hc => ?_, rfl, rfl, rfl, fun w hw => ?_,
    fun n hn => ⟨?_, ?_⟩, fun w hw => ?_⟩
  · rw [assemble_of_wellFormed (wellFormed_init.mpr hL), expand, encode, assembleWord_ofNat 1 hL]
    rfl
  · rw [assemble_of_wellFormed (wellFormed_absorb.mpr hb), expand, encode, assembleWord_ofNat 2 hb]
    rfl
  · rw [assemble_of_wellFormed (wellFormed_absorbChar.mpr hc), expand, encode,
      assembleWord_ofNat 2 (hc.trans (by decide))]
    rfl
  · exact assemble_of_wellFormed (wellFormed_word.mpr hw)
  · exact assemble_of_not_wellFormed (mt wellFormed_init.mp (Nat.not_le.mpr hn))
  · exact assemble_of_not_wellFormed (mt wellFormed_absorb.mp (Nat.not_le.mpr hn))
  · exact assemble_of_not_wellFormed (mt wellFormed_word.mp (Nat.not_le.mpr hw))

/-! ### Pseudo-instructions -/

theorem resultData_eq_flatten (rs : List Response) :
    resultData rs = (rs.map Response.data).flatten := by
  induction rs with
  | nil => rfl
  | cons r rs ih => simp [resultData, ih]

/-- The status fold finds the first response that is not OK (R69). -/
theorem resultStatus_eq_find (rs : List Response) :
    resultStatus rs =
      match rs.find? (fun r => decide (r.status ≠ .ok)) with
      | some r => r.status
      | none => .ok := by
  induction rs with
  | nil => rfl
  | cons r rs ih =>
    by_cases hr : r.status = .ok
    · simpa [resultStatus, hr] using ih
    · simp [resultStatus, hr]

theorem assemble_absorbBytes (m : List Byte) :
    assemble (.absorbBytes m) = assembleAll (m.map fun b => .absorb b.toNat) := by
  have hwf : ∀ line ∈ m.map fun b => AsmLine.absorb b.toNat, line.wellFormed = true := by
    rintro _ hline
    obtain ⟨b, -, rfl⟩ := List.mem_map.mp hline
    exact wellFormed_absorb.mpr (by omega)
  rw [assembleAll_of_wellFormed hwf, assemble_of_wellFormed rfl, List.flatMap_map]
  simp [expand, absorbWords, List.map_eq_flatMap]

theorem assemble_squeezeN (n : Nat) :
    assemble (.squeezeN n) = assembleAll (List.replicate n .squeeze) := by
  have hwf : ∀ line ∈ List.replicate n AsmLine.squeeze, line.wellFormed = true := fun line hline => by
    rw [List.eq_of_mem_replicate hline]
    rfl
  rw [assembleAll_of_wellFormed hwf, assemble_of_wellFormed rfl]
  simp [expand, squeezeWords, List.flatMap_replicate]

/-- `HASH` refuses a length as its `INIT` line does, and is its three lines otherwise (R69). -/
theorem assemble_hash (L : Nat) (m : List Byte) :
    assemble (.hash L m) = assembleAll [.init L, .absorbBytes m, .finalize] := by
  by_cases hL : L ≤ 255
  · rw [assemble_of_wellFormed (wellFormed_hash.mpr hL),
      assembleAll_of_wellFormed (by simp [AsmLine.wellFormed, hL])]
    simp [expand, hashWords]
  · rw [assemble_of_not_wellFormed (mt wellFormed_hash.mp hL),
      assembleAll_cons_of_not_wellFormed (mt wellFormed_init.mp hL)]

theorem assembleAll_xof {L : Nat} (hL : L ≤ 255) (m : List Byte) (n : Nat) :
    assembleAll [.init L, .absorbBytes m, .beginSqueeze, .squeezeN n] =
      .ok (xofWords (.ofNat 8 L) m n) := by
  rw [assembleAll_of_wellFormed (by simp [AsmLine.wellFormed, hL])]
  simp [expand, xofWords]

/-- Settles O47: each pseudo-instruction by the words of its lines, in order. -/
theorem pseudoInstructionsExpand : Obligations.PseudoInstructionsExpand :=
  ⟨assemble_absorbBytes, assemble_squeezeN, assemble_hash, fun _ => ⟨rfl, rfl, rfl, rfl⟩,
    fun m n => ⟨(assembleAll_xof (by decide) m n).symm, (assembleAll_xof (by decide) m n).symm⟩,
    resultData_eq_flatten, resultStatus_eq_find⟩

/-! ### Chunking -/

theorem flatMap_absorbWords (chunks : List (List Byte)) :
    chunks.flatMap absorbWords = absorbWords chunks.flatten := by
  rw [absorbWords, List.map_flatten]
  rfl

theorem flatMap_squeezeWords (ns : List Nat) : ns.flatMap squeezeWords = squeezeWords ns.sum := by
  induction ns with
  | nil => rfl
  | cons n ns ih =>
    rw [List.flatMap_cons, ih, List.sum_cons]
    exact (List.replicate_add n ns.sum _).symm

/-- Settles O48: one command per byte and per output byte, so a split of either changes no word. -/
theorem chunkingGivesTheSameCommands : Obligations.ChunkingGivesTheSameCommands := by
  refine ⟨fun chunks => ?_, fun ns => ?_⟩
  · rw [assembleAll_of_wellFormed (by simp [AsmLine.wellFormed]), assemble_of_wellFormed rfl,
      List.flatMap_map]
    exact congrArg _ (flatMap_absorbWords chunks)
  · rw [assembleAll_of_wellFormed (by simp [AsmLine.wellFormed]), assemble_of_wellFormed rfl,
      List.flatMap_map]
    exact congrArg _ (flatMap_squeezeWords ns)

end Sys2Proof.Machine

/-! The permutation: its tables, what each of its steps does lane by lane, and that it is a bijection
(`40_keccak_f_1600_permutation.md`). -/

namespace Sys2Proof.Machine

/-! ### Rotation of a lane -/

/-- A bit of a rotated lane is the bit `n` places below it, cyclically. -/
theorem getLsbD_rotateLeft_lane (v : Lane) (n : Nat) {i : Nat} (hi : i < 64) :
    (v.rotateLeft n).getLsbD i = v.getLsbD ((64 - n % 64 + i) % 64) := by
  rw [BitVec.getLsbD_rotateLeft]
  by_cases h : i < n % 64
  · simp [h, Nat.mod_eq_of_lt (show 64 - n % 64 + i < 64 by omega)]
  · simp [h, hi, show (64 - n % 64 + i) % 64 = i - n % 64 by omega]

theorem rotateLeft_rotateLeft (v : Lane) (m n : Nat) :
    (v.rotateLeft m).rotateLeft n = v.rotateLeft (m + n) := by
  apply BitVec.eq_of_getLsbD_eq
  intro i hi
  rw [getLsbD_rotateLeft_lane _ _ hi, getLsbD_rotateLeft_lane _ _ hi,
    getLsbD_rotateLeft_lane _ _ (Nat.mod_lt _ (by decide))]
  congr 1
  omega

theorem rotateLeft_xor (v w : Lane) (n : Nat) :
    (v ^^^ w).rotateLeft n = v.rotateLeft n ^^^ w.rotateLeft n := by
  apply BitVec.eq_of_getLsbD_eq
  intro i hi
  simp only [BitVec.getLsbD_xor, getLsbD_rotateLeft_lane _ _ hi]

/-- A rotation by a multiple of the lane's width is none. -/
theorem rotateLeft_of_mod_eq_zero (v : Lane) {n : Nat} (h : n % 64 = 0) : v.rotateLeft n = v := by
  apply BitVec.eq_of_getLsbD_eq
  intro i hi
  rw [getLsbD_rotateLeft_lane _ _ hi, h, Nat.add_mod_left, Nat.mod_eq_of_lt hi]

theorem rotateLeft_injective (n : Nat) : Function.Injective fun v : Lane => v.rotateLeft n := by
  refine Function.LeftInverse.injective (g := fun v => v.rotateLeft (64 - n % 64)) fun v => ?_
  exact (rotateLeft_rotateLeft ..).trans (rotateLeft_of_mod_eq_zero v (by omega))

/-- `ROTL64` (R12) is the rotation of the library. -/
theorem rotl64_eq_rotateLeft (v : Lane) {n : Nat} (hn : n < 64) : rotl64 v n = v.rotateLeft n := by
  rw [BitVec.rotateLeft_def, Nat.mod_eq_of_lt hn, rotl64]

/-! ### The constant tables -/

theorem rotationTable_get : ∀ i : Fin 24, 1 ≤ rotationTable.get i ∧ rotationTable.get i ≤ 63 ∧
    rotationTable.get i = (i.val + 1) * (i.val + 2) / 2 % 64 := by decide

theorem rotationTable_get_lt (i : Fin 24) : rotationTable.get i < 64 := by
  obtain ⟨-, hle, -⟩ := rotationTable_get i
  omega

theorem laneTable_count : ∀ j : Fin 25, j ≠ 0 → laneTable.toList.count j = 1 := by decide

theorem laneTable_get_injective : Function.Injective laneTable.get := by decide

theorem laneTable_get_ne_zero : ∀ i : Fin 24, laneTable.get i ≠ 0 := by decide

/-- Each entry is the pi image `(x, y) ↦ (y, (2x + 3y) mod 5)` of the one before (R86). -/
theorem laneTable_get_succ : ∀ i : Fin 23, (laneTable.get i.succ).val =
    (laneTable.get i.castSucc).val / 5 +
      5 * ((2 * ((laneTable.get i.castSucc).val % 5) +
        3 * ((laneTable.get i.castSucc).val / 5)) % 5) := by decide

/-- The lanes the fused loop reads are all but lane 0: lane 1 first, then every entry but the last. -/
theorem lane_zero_or_one_or_laneTable :
    ∀ j : Fin 25, j = 0 ∨ j = 1 ∨ ∃ i : Fin 23, laneTable.get i.castSucc = j := by decide

theorem roundConstant_bits :
    ∀ r : Fin 24, roundConstant r &&& ~~~(0x800000008000808B : Lane) = 0 := by decide

/-- Settles O35: the tables are finite, and each is read entry by entry. -/
theorem constantTablesHaveTheirShape : Obligations.ConstantTablesHaveTheirShape :=
  ⟨rotationTable_get, laneTable_count, rfl, laneTable_get_succ, roundConstant_bits, ⟨rfl, rfl⟩,
    ⟨rfl, rfl⟩, ⟨rfl, rfl⟩, ⟨rfl, rfl⟩, ⟨rfl, rfl⟩, ⟨rfl, rfl⟩, ⟨rfl, rfl⟩, ⟨rfl, rfl⟩, ⟨rfl, rfl⟩,
    ⟨rfl, rfl⟩, ⟨rfl, rfl⟩, ⟨rfl, rfl⟩⟩

/-! ### The lattice -/

/-- Lane `x + 5y`, at column `x` and row `y` (R13). -/
abbrev laneAt (x y : Fin 5) : Fin 25 := Fin.ofNat 25 (x.val + 5 * y.val)

theorem laneAt_surjective : ∀ i : Fin 25, ∃ x y, laneAt x y = i := by decide

theorem laneAt_val (x y : Fin 5) : (laneAt x y).val = x.val + 5 * y.val :=
  Nat.mod_eq_of_lt (by omega)

theorem lanes_ext {A B : Lanes} (h : ∀ i, A.get i = B.get i) : A = B :=
  Vector.ext fun i hi => h ⟨i, hi⟩

theorem lanes_ext_laneAt {A B : Lanes} (h : ∀ x y, A.get (laneAt x y) = B.get (laneAt x y)) :
    A = B := by
  refine lanes_ext fun i => ?_
  obtain ⟨x, y, rfl⟩ := laneAt_surjective i
  exact h x y

/-! ### Theta -/

theorem columnParity_eq (A : Lanes) (x : Fin 5) :
    columnParity A x = A.get (laneAt x 0) ^^^ A.get (laneAt x 1) ^^^ A.get (laneAt x 2) ^^^
      A.get (laneAt x 3) ^^^ A.get (laneAt x 4) := by
  simp only [columnParity, Vector.get_eq_getElem, laneAt_val]
  rfl

/-- What theta XORs into every lane of column `x`, from the column parities `C` (R82). -/
def thetaD (C : Fin 5 → Lane) (x : Fin 5) : Lane := C (x + 4) ^^^ (C (x + 1)).rotateLeft 1

theorem theta_get (A : Lanes) (x y : Fin 5) :
    (theta A).get (laneAt x y) = A.get (laneAt x y) ^^^ thetaD (columnParity A) x := by
  have column (k : Nat) (h : ((laneAt x y).val + k) % 5 < 5) :
      (⟨((laneAt x y).val + k) % 5, h⟩ : Fin 5) = x + Fin.ofNat 5 k := by
    ext
    simp only [Fin.val_add, Fin.val_ofNat]
    omega
  simp only [theta, Vector.get_ofFn, Vector.getElem_ofFn, rotl64_eq_rotateLeft _ (by decide : 1 < 64)]
  rw [column 4, column 1]
  rfl

/-- Theta changes a column's parity by `D` itself, as a column has five lanes. -/
theorem columnParity_theta (A : Lanes) (x : Fin 5) :
    columnParity (theta A) x = columnParity A x ^^^ thetaD (columnParity A) x := by
  rw [columnParity_eq, columnParity_eq A]
  simp only [theta_get]
  generalize thetaD (columnParity A) x = D
  grind

theorem thetaD_xor (C C' : Fin 5 → Lane) (x : Fin 5) :
    thetaD (fun x => C x ^^^ C' x) x = thetaD C x ^^^ thetaD C' x := by
  simp only [thetaD, rotateLeft_xor]
  ac_rfl

/-- A parity that is the sum of two shifted ones, put into itself: as the two mixed terms cancel, it is also
the sum of the ones shifted twice as far (squaring, over the field of two elements). -/
theorem parity_relation_doubled {c : Fin 5 → Lane} {a b : Fin 5} {n : Nat}
    (h : ∀ x, c x = c (x + a) ^^^ (c (x + b)).rotateLeft n) (x : Fin 5) :
    c x = c (x + (a + a)) ^^^ (c (x + (b + b))).rotateLeft (n + n) := by
  have ha : c (x + a) = c (x + (a + a)) ^^^ (c (x + (a + b))).rotateLeft n := by
    simpa only [add_assoc] using h (x + a)
  have hb : (c (x + b)).rotateLeft n =
      (c (x + (a + b))).rotateLeft n ^^^ (c (x + (b + b))).rotateLeft (n + n) := by
    rw [h (x + b), rotateLeft_xor, rotateLeft_rotateLeft, add_assoc, add_assoc, add_comm b a]
  rw [h x, ha, hb, BitVec.xor_assoc, ← BitVec.xor_assoc (BitVec.rotateLeft _ n), BitVec.xor_self,
    BitVec.zero_xor]

/-- Parities that are each the sum of their two neighbours repeat after three columns, hence are all equal,
hence zero. -/
theorem eq_zero_of_eq_xor_neighbours {c : Fin 5 → Lane} (h : ∀ x, c x = c (x + 1) ^^^ c (x + 4))
    (x : Fin 5) : c x = 0 := by
  have three_apart (x : Fin 5) : c (x + 3) = c x := by
    have h1 : c (x + 1) = c (x + 2) ^^^ c x := by
      simpa only [add_assoc, Fin.reduceAdd, add_zero] using h (x + 1)
    have h2 : c (x + 2) = c (x + 3) ^^^ c (x + 1) := by
      simpa only [add_assoc, Fin.reduceAdd] using h (x + 2)
    rw [← BitVec.xor_left_inj (c (x + 1)), ← h2, h1, BitVec.xor_comm (c (x + 2)),
      ← BitVec.xor_assoc, BitVec.xor_self, BitVec.zero_xor]
  have h4 : c (x + 4) = c (x + 1) := by
    simpa only [add_assoc, Fin.reduceAdd] using three_apart (x + 1)
  exact (h x).trans (by rw [h4]; exact BitVec.xor_self)

/-- No parities but zero equal their own `D`: doubled six times, the relation rotates by 64 places, that is,
not at all. -/
theorem eq_zero_of_eq_thetaD {c : Fin 5 → Lane} (h : ∀ x, c x = thetaD c x) (x : Fin 5) :
    c x = 0 := by
  have sixty_fourth (x : Fin 5) : c x = c (x + 1) ^^^ (c (x + 4)).rotateLeft 64 :=
    parity_relation_doubled (parity_relation_doubled (parity_relation_doubled
      (parity_relation_doubled (parity_relation_doubled (parity_relation_doubled h))))) x
  simp only [rotateLeft_of_mod_eq_zero] at sixty_fourth
  exact eq_zero_of_eq_xor_neighbours sixty_fourth x

theorem theta_injective : Function.Injective theta := by
  intro A B h
  have hparity : columnParity A = columnParity B := by
    funext x
    refine BitVec.xor_eq_zero_iff.mp
      (eq_zero_of_eq_thetaD (c := fun x => columnParity A x ^^^ columnParity B x) (fun x => ?_) x)
    have hx := congrArg (columnParity · x) h
    simp only [columnParity_theta] at hx
    rw [thetaD_xor]
    rw [← BitVec.xor_eq_zero_iff] at hx ⊢
    rw [← hx]
    ac_rfl
  refine lanes_ext_laneAt fun x y => ?_
  have hxy := congrArg (·.get (laneAt x y)) h
  simpa only [theta_get, hparity, BitVec.xor_left_inj] using hxy

/-! ### Rho and pi -/

/-- A run of the fused loop leaves every lane it does not visit. -/
theorem rhoPi_foldl_get_of_not_mem {is : List (Fin 24)} {j : Fin 25}
    (h : ∀ i ∈ is, laneTable.get i ≠ j) (p : Lanes × Lane) :
    (is.foldl rhoPiStep p).1.get j = p.1.get j := by
  induction is generalizing p with
  | nil => rfl
  | cons i is ih =>
    obtain ⟨hi, his⟩ := List.forall_mem_cons.mp h
    rw [List.foldl_cons, ih his, rhoPiStep, vector_get_set, if_neg hi.symm]

theorem rhoPi_foldl_get_unvisited {is : List (Fin 24)} {i : Fin 24} (hi : i ∉ is) (p : Lanes × Lane) :
    (is.foldl rhoPiStep p).1.get (laneTable.get i) = p.1.get (laneTable.get i) :=
  rhoPi_foldl_get_of_not_mem (fun k hk (heq : laneTable.get k = laneTable.get i) =>
    hi (laneTable_get_injective heq ▸ hk)) p

/-- The lane of an iteration that does not come again ends as the carry that reached it, rotated. -/
theorem rhoPi_foldl_get_visited {before after : List (Fin 24)} {i : Fin 24} (hi : i ∉ after)
    (p : Lanes × Lane) :
    ((before ++ i :: after).foldl rhoPiStep p).1.get (laneTable.get i) =
      (before.foldl rhoPiStep p).2.rotateLeft (rotationTable.get i) := by
  rw [List.foldl_append, List.foldl_cons, rhoPi_foldl_get_unvisited hi, rhoPiStep, vector_get_set,
    if_pos rfl, rotl64_eq_rotateLeft _ (rotationTable_get_lt i)]

/-- The carry after an iteration that was not made before is what its lane held at the start. -/
theorem rhoPi_foldl_carry {before : List (Fin 24)} {i : Fin 24} (hi : i ∉ before) (p : Lanes × Lane) :
    ((before ++ [i]).foldl rhoPiStep p).2 = p.1.get (laneTable.get i) := by
  rw [List.foldl_append]
  exact rhoPi_foldl_get_unvisited hi p

/-- Of two iterations next to each other, the second moves the first one's lane to its own, if no lane is
visited twice. -/
theorem rhoPi_foldl_get_move {before after : List (Fin 24)} {i k : Fin 24}
    (h : (before ++ i :: k :: after).Nodup) (p : Lanes × Lane) :
    ((before ++ i :: k :: after).foldl rhoPiStep p).1.get (laneTable.get k) =
      (p.1.get (laneTable.get i)).rotateLeft (rotationTable.get k) := by
  have hk : k ∉ after := h.of_append_right.of_cons.notMem
  have hi : i ∉ before := fun hm =>
    (List.nodup_middle.mp h).notMem (List.mem_append_left _ hm)
  rw [List.append_cons, rhoPi_foldl_get_visited hk, rhoPi_foldl_carry hi]

theorem finRange_split : ∀ i : Fin 23, List.finRange 24 =
    (List.finRange 24).take i.val ++ i.castSucc :: i.succ :: (List.finRange 24).drop (i.val + 2) := by
  decide

/-- Settles O34: each lane is visited once, so an iteration rotates what the lane visited before it held in
the input, and no later one touches what it writes. -/
theorem rhoPiFollowsTheMoveTable : Obligations.RhoPiFollowsTheMoveTable := by
  intro A
  refine ⟨rhoPi_foldl_get_of_not_mem (fun i _ => laneTable_get_ne_zero i) _, ?_, fun i => ?_⟩
  · exact rhoPi_foldl_get_visited (before := []) (i := 0) (after := (List.finRange 24).tail)
      (by decide) _
  · rw [rhoPi, finRange_split i, rhoPi_foldl_get_move (finRange_split i ▸ List.nodup_finRange 24)]

theorem rhoPi_injective : Function.Injective rhoPi := by
  intro A B h
  refine lanes_ext fun j => ?_
  obtain ⟨hA0, hA10, hA⟩ := rhoPiFollowsTheMoveTable A
  obtain ⟨hB0, hB10, hB⟩ := rhoPiFollowsTheMoveTable B
  obtain rfl | rfl | ⟨i, rfl⟩ := lane_zero_or_one_or_laneTable j
  · rw [← hA0, h, hB0]
  · exact rotateLeft_injective 1 (by simp only [← hA10, h, hB10])
  · exact rotateLeft_injective (rotationTable.get i.succ) (by simp only [← hA, h, hB])

/-! ### Chi -/

/-- A lane after chi, from it and the two lanes after it in its row (R87). -/
def chiLane (a b c : Lane) : Lane := a ^^^ (~~~b &&& c)

theorem chi_get (A : Lanes) (x y : Fin 5) : (chi A).get (laneAt x y) =
    chiLane (A.get (laneAt x y)) (A.get (laneAt (x + 1) y)) (A.get (laneAt (x + 2) y)) := by
  have neighbour (k : Fin 5)
      (h : 5 * ((laneAt x y).val / 5) + ((laneAt x y).val % 5 + k.val) % 5 < 25) :
      (⟨5 * ((laneAt x y).val / 5) + ((laneAt x y).val % 5 + k.val) % 5, h⟩ : Fin 25) =
        laneAt (x + k) y := by
    ext
    simp only [laneAt_val, Fin.val_add]
    omega
  simp only [chi, Vector.get_ofFn]
  rw [← neighbour 1, ← neighbour 2]
  rfl

/-- The first lane of a row out of the row after chi. -/
theorem chiLane_inverse (a b c d e : Lane) :
    chiLane (chiLane a b c) (chiLane b c d)
      (chiLane (chiLane c d e) (chiLane d e a) (chiLane e a b)) = a := by
  apply BitVec.eq_of_getLsbD_eq
  intro i hi
  simp only [chiLane, BitVec.getLsbD_xor, BitVec.getLsbD_and, BitVec.getLsbD_not, hi, decide_true,
    Bool.true_and]
  generalize a.getLsbD i = a, b.getLsbD i = b, c.getLsbD i = c, d.getLsbD i = d, e.getLsbD i = e
  revert a b c d e
  decide

theorem get_eq_of_chi (A : Lanes) (x y : Fin 5) : A.get (laneAt x y) =
    chiLane ((chi A).get (laneAt x y)) ((chi A).get (laneAt (x + 1) y))
      (chiLane ((chi A).get (laneAt (x + 2) y)) ((chi A).get (laneAt (x + 3) y))
        ((chi A).get (laneAt (x + 4) y))) := by
  simp only [chi_get, add_assoc, Fin.reduceAdd, add_zero]
  exact (chiLane_inverse ..).symm

theorem chi_injective : Function.Injective chi := fun A B h =>
  lanes_ext_laneAt fun x y => by rw [get_eq_of_chi A, get_eq_of_chi B, h]

/-! ### Iota -/

theorem iota_get (r : Fin 24) (A : Lanes) (i : Fin 25) :
    (iota r A).get i = if i = 0 then A.get i ^^^ roundConstant r else A.get i := by
  refine (vector_get_set A 0 i _).trans ?_
  split
  case isTrue h => subst h; rfl
  case isFalse => rfl

theorem iota_involutive (r : Fin 24) : Function.Involutive (iota r) := by
  refine fun A => lanes_ext fun i => ?_
  by_cases h : i = 0 <;> simp [iota_get, h]

/-- Settles O33: the three steps' own equations, at lane `x + 5y`. -/
theorem thetaChiIotaLaneByLane : Obligations.ThetaChiIotaLaneByLane := by
  refine ⟨fun A C hC x y => ?_, fun A x y => ?_, fun A r => iota_get r A⟩
  · have hparity : columnParity A = C := by
      funext x
      rw [hC x, columnParity_eq]
      rfl
    subst hparity
    exact theta_get A x y
  · simp only [Nat.add_comm (5 * y.val)]
    exact chi_get A x y

/-! ### The permutation -/

theorem keccakRound_injective (r : Fin 24) : Function.Injective fun A => keccakRound A r :=
  (iota_involutive r).injective.comp
    (chi_injective.comp (rhoPi_injective.comp theta_injective))

theorem foldl_keccakRound_injective (rs : List (Fin 24)) :
    Function.Injective fun A => rs.foldl keccakRound A := by
  induction rs with
  | nil => exact Function.injective_id
  | cons r rs ih => exact ih.comp (keccakRound_injective r)

theorem lanes_finite : Finite Lanes :=
  Finite.of_injective Vector.get fun _ _ h => lanes_ext (congrFun h)

/-- Settles O36: each step of a round is injective, so the rounds are; the state arrays are finitely many. -/
theorem keccakFIsABijection : Obligations.KeccakFIsABijection := by
  have := lanes_finite
  refine Finite.injective_iff_bijective.mp ?_
  unfold keccakF
  exact foldl_keccakRound_injective _

end Sys2Proof.Machine

/-! The sponge: what each command completes from legal registers, the lifecycle table, and the command
machine against the block-wise reference (`41_sponge_state_machine.md`). -/

namespace Sys2Proof.Machine

/-! ### The output length -/

theorem legalLength_iff_mem {L : Byte} : legalLength L = true ↔ L ∈ [16, 20, 28, 32, 48, 64] := by
  simp [legalLength, or_assoc]

/-- Settles O30: the six lengths leave a rate of 72 to 168, and none of them is 0 or 100 and more. -/
theorem legalLengthsFitTheRate : Obligations.LegalLengthsFitTheRate := by
  refine ⟨fun L hL => ?_, fun L hL => ?_⟩
  · obtain ⟨hr, hmin, hmax⟩ := rateOf_of_legalLength hL
    omega
  · rw [← Bool.not_eq_true]
    intro hlegal
    obtain ⟨-, hmin, hmax⟩ := rateOf_of_legalLength hlegal
    obtain rfl | hbig := hL
    · exact absurd hmin (by decide)
    · omega

/-! ### `INIT` and `ABSORB` -/

@[simp] theorem byteAt_zeroLanes (k : Fin 200) : byteAt zeroLanes k = 0 := by
  simp [byteAt, zeroLanes, Vector.get_eq_getElem]

theorem exec_init_of_legalLength {L : Byte} (h : legalLength L = true) (s : State) :
    exec (.init L) s = .next (respond .ok []
      { s with lanes := zeroLanes, outlen := L, rate := rateOf L, cursor := 0, mode := .absorbing }) :=
  if_pos h

theorem rateOf_eq_ofNat {L : Byte} (h : legalLength L = true) :
    rateOf L = BitVec.ofNat 8 (200 - 2 * L.toNat) := by
  obtain ⟨hr, -⟩ := rateOf_of_legalLength h
  rw [← hr, BitVec.ofNat_toNat, BitVec.setWidth_eq]

/-- Settles O7: `INIT` writes the whole context from the zero array if the length is one of the six. -/
theorem initStartsAFreshContext : Obligations.InitStartsAFreshContext := by
  obtain ⟨-, -, hdecode, hfail⟩ := illegalWordsAreThoseOfTheRule
  refine ⟨hdecode, fun L s hmem => ?_, hfail⟩
  have hL := legalLength_iff_mem.mpr hmem
  refine ⟨zeroLanes, byteAt_zeroLanes, ?_⟩
  rw [exec_init_of_legalLength hL, rateOf_eq_ofNat hL]
  rfl

/-- A word is its opcode's word with the operand in the low byte (R61). -/
theorem assembleWord_eq_or (opc : BitVec 4) (imm : Byte) :
    assembleWord opc imm = assembleWord opc 0 ||| imm.setWidth 16 := by
  rw [assembleWord, assembleWord, BitVec.append_def _ imm, BitVec.append_def _ (0 : Byte),
    BitVec.setWidth'_eq, BitVec.setWidth'_eq]
  exact congrArg (· ||| _) BitVec.or_zero.symm

/-- A command fails with the status the lifecycle table gives it, if that is not OK (R162, R165). -/
theorem exec_of_tableStatus_eq {i : Instr} {s : State} {E : Status} (h : tableStatus s.mode i = E)
    (hE : E ≠ .ok) : exec i s = .next (afterFailure E s) := by
  subst h
  exact exec_of_tableStatus_ne_ok hE

theorem exec_absorb_of_absorbing {s : State} (d : Byte) (hm : s.mode = .absorbing)
    (hc : s.cursor.toNat < 200) :
    exec (.absorb d) s = .next (respond .ok [] (permuteIfFull
      { s with lanes := xorByte s.lanes ⟨s.cursor.toNat, hc⟩ d, cursor := s.cursor + 1 })) := by
  simp only [exec, execAbsorb, hm, ne_eq, not_true, if_false, withIndex_of_lt hc]

/-- Settles O8: the byte goes in at the cursor, and the 8-bit comparison with the rate is the one of the
numbers, since a cursor below 200 does not wrap. -/
theorem absorbXorsAtTheCursor : Obligations.AbsorbXorsAtTheCursor := by
  refine ⟨fun d => decode_eq_ok_iff.mpr (assembleWord_eq_or 2 d),
    fun d s hm => exec_of_tableStatus_eq (by simp [hm]) (by decide),
    fun d s hm hc => ⟨xorByte s.lanes ⟨s.cursor.toNat, hc⟩ d, fun k => ?_, ?_⟩, fun s hs hm => ?_⟩
  · simp only [byteAt_xorByte, Fin.ext_iff]
  · have hfull : s.cursor + 1 = s.rate ↔ s.cursor.toNat + 1 = s.rate.toNat := by bv_omega
    rw [exec_absorb_of_absorbing d hm hc]
    simp only [permuteIfFull, hfull]
    split <;> rfl
  · have hlt := hs.cursor_lt hm
    obtain ⟨-, -, -, hmax, -⟩ := hs.context (by simp [hm])
    exact ⟨hlt, hmax⟩

/-! ### The lifecycle -/

/-- A command that completes leaves the mode of the lifecycle table (R110). -/
theorem Completes.mode_eq {i : Instr} {s t : State} (h : Completes i s t) : t.mode = tableMode i := by
  cases h with
  | init | finalize | beginSqueeze => rfl
  | absorb hm => simpa [tableMode] using hm
  | squeeze hm => simpa [tableMode] using hm

/-- Settles O17: from legal registers a command answers, and it fails or completes as the table says. -/
theorem lifecycleTableHolds : Obligations.LifecycleTableHolds := by
  refine ⟨fun s i hs => ?_, fun s w rest e hw hd => ⟨_, step_of_illegal_word hw hd, rfl, rfl⟩⟩
  obtain ⟨t, ht⟩ := exec_answers_of_inv i hs
  obtain ⟨hE, rfl⟩ | ⟨hok, hc⟩ := exec_cases ht
  · exact ⟨_, [], ht, rfl, (if_neg hE).symm⟩
  · obtain ⟨data, hr⟩ := hc.responses_eq
    exact ⟨t, data, ht, by rw [hr, hok], by rw [if_pos hok, hc.mode_eq]⟩

/-- Settles O28: a step that waits or fails keeps the mode, and of the commands that complete only `INIT`
leaves ABSORBING from another mode. -/
theorem onlyInitReturnsToAbsorbing : Obligations.OnlyInitReturnsToAbsorbing := by
  intro s t hm h ht
  have hne : s.mode ≠ .absorbing := fun heq => by simp [heq] at hm
  obtain rfl | ⟨w, rest, hw, ⟨E, -, rfl⟩ | ⟨i, hd, hc⟩⟩ := step_next_cases h
  · exact absurd ht hne
  · exact absurd ht hne
  · obtain rfl := encode_of_decode hd
    have hi : tableMode i = .absorbing := hc.mode_eq.symm.trans ht
    cases i with
    | init L => cases hc with | init hL => exact ⟨L, rest, hw, hL, byteAt_zeroLanes, rfl⟩
    | absorb d => cases hc with | absorb hm' => exact absurd hm' hne
    | finalize | beginSqueeze | squeeze => cases hi

end Sys2Proof.Machine

namespace Sys2Proof.Reference

open Sys2Proof.Machine

/-! ### The reference: blocks -/

theorem byteAt_xorBlock (A : Lanes) (block : List Byte) (k : Fin 200) :
    byteAt (xorBlock A block) k = byteAt A k ^^^ block.getD k.val 0 := by
  simp [xorBlock, byteAt_bytesToLanes, Vector.get_eq_getElem]

theorem xorBlock_nil (A : Lanes) : xorBlock A [] = A :=
  lanes_ext_of_bytes fun k => by simp [byteAt_xorBlock]

/-- The bytes put behind a block are XORed in from its end on. -/
theorem byteAt_xorBlock_append (A : Lanes) (a b : List Byte) (k : Fin 200) :
    byteAt (xorBlock A (a ++ b)) k =
      byteAt (xorBlock A a) k ^^^ if k.val < a.length then 0 else b.getD (k.val - a.length) 0 := by
  rw [byteAt_xorBlock, byteAt_xorBlock]
  split
  next h => simp [List.getElem?_append_left h]
  next h =>
    have hle := Nat.le_of_not_lt h
    simp [List.getElem?_append_right hle, hle]

/-- A block and one byte more is one more byte written (R117). -/
theorem xorBlock_append_one (A : Lanes) {block : List Byte} {c : Fin 200} (hc : c.val = block.length)
    (d : Byte) : xorBlock A (block ++ [d]) = xorByte (xorBlock A block) c d := by
  refine lanes_ext_of_bytes fun k => ?_
  rw [byteAt_xorByte, byteAt_xorBlock_append, ← hc]
  simp only [Fin.ext_iff]
  obtain hlt | heq | hgt := lt_trichotomy k.val c.val
  · simp [hlt, hlt.ne]
  · simp [heq]
  · have hbeyond : [d].length ≤ k.val - c.val := Nat.sub_pos_of_lt hgt
    simp only [hgt.ne', if_false, hgt.not_gt, List.getD_eq_default [d] 0 hbeyond]
    simp

/-- The next number in the same block, and the first of the next block. -/
theorem succ_div_mod_of_lt {n r : Nat} (h : n % r + 1 < r) :
    (n + 1) / r = n / r ∧ (n + 1) % r = n % r + 1 := by
  have := Nat.mod_add_div n r
  exact (Nat.div_mod_unique (by omega)).mpr ⟨by omega, h⟩

theorem succ_div_mod_of_eq {n r : Nat} (h : n % r + 1 = r) :
    (n + 1) / r = n / r + 1 ∧ (n + 1) % r = 0 := by
  have := Nat.mod_add_div n r
  exact (Nat.div_mod_unique (by omega)).mpr ⟨by rw [Nat.mul_succ]; omega, by omega⟩

theorem absorbBlocks_append {r n : Nat} {m : List Byte} (m' : List Byte) (h : n * r ≤ m.length) :
    absorbBlocks r (m ++ m') n = absorbBlocks r m n := by
  induction n with
  | zero => rfl
  | succ n ih =>
    rw [Nat.succ_mul] at h
    have hblock : ((m ++ m').drop (n * r)).take r = (m.drop (n * r)).take r := by
      rw [List.drop_append_of_le_length (by omega),
        List.take_append_of_le_length (by rw [List.length_drop]; omega)]
    rw [absorbBlocks, absorbBlocks, ih (by omega), hblock]

/-- The bytes of `m` after its complete blocks of `r` bytes (R117). -/
def lastBlock (r : Nat) (m : List Byte) : List Byte := m.drop (m.length / r * r)

/-- The state of the block-wise sponge while absorbing: the complete blocks of `m`, one permutation each,
and the rest XORed in (R117). -/
def absorbed (r : Nat) (m : List Byte) : Lanes :=
  xorBlock (absorbBlocks r m (m.length / r)) (lastBlock r m)

theorem length_lastBlock (r : Nat) (m : List Byte) : (lastBlock r m).length = m.length % r := by
  rw [lastBlock, List.length_drop, Nat.mod_eq_sub_div_mul]

/-- Bytes that fill the last block complete it. -/
theorem absorbBlocks_append_full {r : Nat} {m m' : List Byte} (h : m.length % r + m'.length = r) :
    absorbBlocks r (m ++ m') (m.length / r + 1) =
      keccakF (xorBlock (absorbBlocks r m (m.length / r)) (lastBlock r m ++ m')) := by
  have hle : m.length / r * r ≤ m.length := Nat.div_mul_le_self _ _
  have hblock : ((m ++ m').drop (m.length / r * r)).take r = lastBlock r m ++ m' := by
    rw [List.drop_append_of_le_length hle]
    exact List.take_of_length_le (by rw [List.length_append, ← lastBlock, length_lastBlock, h])
  rw [absorbBlocks, absorbBlocks_append m' hle, hblock]

theorem absorbed_nil (r : Nat) : absorbed r [] = zeroLanes := by
  simp [absorbed, lastBlock, xorBlock_nil, absorbBlocks]

/-- One byte more is one byte written, and the permutation follows the byte that fills the block (R113). -/
theorem absorbed_append_one {r : Nat} {m : List Byte} {c : Fin 200} (hc : c.val = m.length % r)
    (hlt : c.val < r) (d : Byte) :
    absorbed r (m ++ [d]) =
      if c.val + 1 = r then keccakF (xorByte (absorbed r m) c d) else xorByte (absorbed r m) c d := by
  rw [absorbed, absorbed, ← xorBlock_append_one _ (hc.trans (length_lastBlock r m).symm),
    List.length_append, List.length_singleton]
  split
  next hfull =>
    obtain ⟨hdiv, hmod⟩ := succ_div_mod_of_eq (hc ▸ hfull)
    have hlast : lastBlock r (m ++ [d]) = [] := by
      rw [← List.length_eq_zero_iff, length_lastBlock, List.length_append, List.length_singleton, hmod]
    rw [hlast, xorBlock_nil, hdiv, absorbBlocks_append_full (hc ▸ hfull)]
  next hfull =>
    obtain ⟨hdiv, -⟩ := succ_div_mod_of_lt (n := m.length) (r := r) (by omega)
    have hle : m.length / r * r ≤ m.length := Nat.div_mul_le_self _ _
    rw [lastBlock, List.length_append, List.length_singleton, hdiv, absorbBlocks_append _ hle,
      List.drop_append_of_le_length hle, ← lastBlock]

/-! ### The reference: padding -/

/-- The padding is the suffix in its first byte and the terminator in its last, both in one byte if
there is only one (R131). -/
theorem getD_padding {r len : Nat} (hr : 0 < r) (suffix : Byte) (j : Nat) :
    (padding r len suffix).getD j 0 =
      (if j = 0 then suffix else 0) ^^^ (if j + 1 = r - len % r then 0x80 else 0) := by
  have hpos : 0 < r - len % r := Nat.sub_pos_of_lt (Nat.mod_lt len hr)
  unfold padding
  generalize r - len % r = k at hpos
  dsimp only
  split
  next hk => subst hk; cases j <;> simp
  next hk =>
    cases j with
    | zero => simp [Ne.symm hk]
    | succ j =>
      simp only [List.cons_append, List.getD_cons_succ]
      obtain hlt | heq | hgt := lt_trichotomy j (k - 2)
      · rw [List.getD_append _ _ _ _ (by simpa), List.getD_replicate _ hlt,
          if_neg (by omega), if_neg (by omega)]
        rfl
      · simp [heq, show k - 2 + 1 + 1 = k by omega]
      · rw [List.getD_eq_default _ _ (by simp; omega), if_neg (by omega), if_neg (by omega)]
        rfl

theorem length_padding {r : Nat} (hr : 0 < r) (len : Nat) (suffix : Byte) :
    (padding r len suffix).length = r - len % r := by
  have hpos : 0 < r - len % r := Nat.sub_pos_of_lt (Nat.mod_lt len hr)
  unfold padding
  dsimp only
  split
  next hk => rw [hk]; rfl
  next hk =>
    simp only [List.length_append, List.length_cons, List.length_replicate, List.length_nil]
    omega

/-- The padding of the last block, byte by byte, is that of `FINALIZE` and `BEGIN_SQUEEZE` (R130, R140). -/
theorem spongeState_eq {r : Nat} (suffix : Byte) (m : List Byte) {c t : Fin 200}
    (hc : c.val = m.length % r) (ht : t.val + 1 = r) :
    spongeState r suffix m = keccakF (padLanes (absorbed r m) suffix c t) := by
  have hlt := Nat.mod_lt m.length (show 0 < r by omega)
  rw [spongeState, absorbBlocks_append_full (by rw [length_padding (by omega)]; omega)]
  refine congrArg keccakF (lanes_ext_of_bytes fun k => ?_)
  rw [byteAt_padLanes, byteAt_xorBlock_append, length_lastBlock, getD_padding (by omega), ← hc,
    BitVec.xor_assoc, absorbed]
  refine congrArg (byteAt _ k ^^^ ·) ?_
  simp only [Fin.ext_iff]
  split
  · rw [if_neg (by omega), if_neg (by omega)]
    rfl
  · have hsuffix : k.val - c.val = 0 ↔ k.val = c.val := by omega
    have hend : k.val - c.val + 1 = r - c.val ↔ k.val = t.val := by omega
    simp only [hsuffix, hend]

/-! ### The reference: the output stream -/

/-- The last of `n + 1` permutations, where the definition takes the first. -/
theorem permuteTimes_succ (n : Nat) (A : Lanes) :
    permuteTimes (n + 1) A = keccakF (permuteTimes n A) := by
  induction n generalizing A with
  | zero => rfl
  | succ n ih => exact ih (keccakF A)

/-- After `q` output bytes the cursor is inside the block of byte `q`, or at the end of the block before
it (R34). -/
theorem deferred_block_cases (q : Nat) {r : Nat} (hr : 0 < r) :
    (q - (q - 1) / r * r < r ∧ q / r = (q - 1) / r ∧ q % r = q - (q - 1) / r * r) ∨
      (q - (q - 1) / r * r = r ∧ q / r = (q - 1) / r + 1 ∧ q % r = 0) := by
  cases q with
  | zero => simp [hr]
  | succ n =>
    have hcur : n + 1 - n / r * r = n % r + 1 := by
      have := Nat.mod_add_div' n r
      omega
    rw [Nat.add_sub_cancel, hcur]
    obtain hlt | heq := Nat.lt_or_eq_of_le (Nat.mod_lt n hr)
    · exact .inl ⟨hlt, succ_div_mod_of_lt hlt⟩
    · exact .inr ⟨heq, succ_div_mod_of_eq heq⟩

end Sys2Proof.Reference

namespace Sys2Proof.Machine

/-! ### Steps that complete -/

theorem run_append_step {n : Nat} {s t u : State} (h : run n s = .next t) (hu : step t = .next u) :
    run (n + 1) s = .next u :=
  (run_add 1 h).trans (run_succ_of_step hu)

/-- A step on the word of a command that the lifecycle table accepts and that answers. -/
theorem step_completes {s : State} {i : Instr} {rest : List CommandWord}
    (hw : s.commands = encode i :: rest) (hok : tableStatus s.mode i = .ok)
    (ha : ∃ t, exec i { s with commands := rest } = .next t) :
    ∃ t, step s = .next t ∧ t.commands = rest ∧ Completes i { s with commands := rest } t := by
  obtain ⟨t, ht⟩ := ha
  have hc := completes_of_tableStatus_ok (s := { s with commands := rest }) hok ht
  exact ⟨t, (step_of_legal_word hw (decode_encode i)).trans ht, hc.commands_eq, hc⟩

/-- From legal registers every command answers. -/
theorem State.Inv.step_completes {s : State} {i : Instr} {rest : List CommandWord} (hs : s.Inv)
    (hw : s.commands = encode i :: rest) (hok : tableStatus s.mode i = .ok) :
    ∃ t, step s = .next t ∧ t.commands = rest ∧ Completes i { s with commands := rest } t :=
  Machine.step_completes hw hok (exec_answers_of_inv i (s := { s with commands := rest }) hs)

/-! ### Absorbing a message -/

theorem toNat_terminatorIndex_add_one {rate : Byte} (h : 0 < rate.toNat) :
    (terminatorIndex rate).toNat + 1 = rate.toNat := by
  unfold terminatorIndex; bv_omega

/-- `s` is what `INIT L` and the bytes of `m` leave from `s₀`, in the terms of the block-wise sponge. -/
structure AbsorbedFrom (s₀ : State) (L : Byte) (m : List Byte) (s : State) : Prop where
  mode : s.mode = .absorbing
  outlen : s.outlen = L
  rate : s.rate = rateOf L
  err : s.err = s₀.err
  cursor : s.cursor.toNat = m.length % (rateOf L).toNat
  lanes : s.lanes = Reference.absorbed (rateOf L).toNat m
  responses : s.responses = s₀.responses ++ List.replicate (m.length + 1) ⟨.ok, []⟩

namespace AbsorbedFrom
variable {s₀ s t : State} {L : Byte} {m : List Byte}

theorem with_commands (h : AbsorbedFrom s₀ L m s) (cs : List CommandWord) :
    AbsorbedFrom s₀ L m { s with commands := cs } := { h with }

theorem cursor_lt (h : AbsorbedFrom s₀ L m s) (hL : legalLength L = true) :
    s.cursor.toNat < (rateOf L).toNat := by
  obtain ⟨hr, hmin, hmax⟩ := rateOf_of_legalLength hL
  exact h.cursor ▸ Nat.mod_lt _ (by omega)

theorem inv (h : AbsorbedFrom s₀ L m s) (hL : legalLength L = true) : s.Inv :=
  inv_of_cursor_lt (by simp [h.mode]) (h.outlen ▸ hL) (h.outlen ▸ h.rate)
    (h.rate ▸ h.cursor_lt hL)

/-- `INIT` starts from the empty message (R111). -/
theorem of_init (h : Completes (.init L) s t) : AbsorbedFrom s L [] t := by
  cases h
  exact ⟨rfl, rfl, rfl, rfl, (Nat.zero_mod _).symm, (Reference.absorbed_nil _).symm, rfl⟩

/-- `ABSORB` adds its byte to the message (R113, R117). -/
theorem append_one {d : Byte} (h : AbsorbedFrom s₀ L m s) (hL : legalLength L = true)
    (hd : Completes (.absorb d) s t) : AbsorbedFrom s₀ L (m ++ [d]) t := by
  have hlt := h.cursor_lt hL
  cases hd with
  | absorb hm hc =>
    have hfull : s.cursor + 1 = s.rate ↔ s.cursor.toNat + 1 = (rateOf L).toNat := by
      rw [h.rate]; bv_omega
    refine ⟨by simpa using h.mode, by simpa using h.outlen, by simpa using h.rate,
      by simpa using h.err, ?_, ?_, by simp [h.responses, List.replicate_succ']⟩
    · rw [respond_cursor, permuteIfFull_cursor, List.length_append, List.length_singleton]
      simp only [hfull]
      rw [h.cursor] at hlt ⊢
      split
      next hlast => exact (Reference.succ_div_mod_of_eq hlast).2.symm
      next hmid =>
        rw [(Reference.succ_div_mod_of_lt (n := m.length) (by omega)).2, ← h.cursor]
        bv_omega
    · rw [respond_lanes, permuteIfFull_lanes,
        Reference.absorbed_append_one (c := ⟨_, hc⟩) h.cursor hlt, ← h.lanes]
      simp only [hfull]

/-- Padding an absorbed message and permuting gives the sponge of the padded message (R130, R140). -/
theorem spongeState_eq (h : AbsorbedFrom s₀ L m s) (hL : legalLength L = true) (suffix : Byte)
    (hc : s.cursor.toNat < 200) (ht : (terminatorIndex s.rate).toNat < 200) :
    keccakF (padLanes s.lanes suffix ⟨_, hc⟩ ⟨_, ht⟩) =
      Reference.spongeState (rateOf L).toNat suffix m := by
  obtain ⟨hr, hmin, hmax⟩ := rateOf_of_legalLength hL
  have hterm : (terminatorIndex s.rate).toNat + 1 = (rateOf L).toNat := by
    rw [h.rate, toNat_terminatorIndex_add_one (by omega)]
  rw [h.lanes, Reference.spongeState_eq suffix m (c := ⟨_, hc⟩) (t := ⟨_, ht⟩) h.cursor hterm]

end AbsorbedFrom

/-- `INIT L` and the bytes of a message, by induction on the message from its end. -/
theorem run_init_absorbWords {s : State} {L : Byte} {m : List Byte} {rest : List CommandWord}
    (hL : legalLength L = true) (hw : s.commands = encode (.init L) :: absorbWords m ++ rest) :
    ∃ t, run (m.length + 1) s = .next t ∧ t.commands = rest ∧ AbsorbedFrom s L m t := by
  induction m using List.reverseRecOn generalizing rest with
  | nil =>
    obtain ⟨t, ht, htw, hc⟩ := step_completes (i := .init L) hw (by simp [hL]) (exec_init_answers L _)
    exact ⟨t, run_succ_of_step ht, htw, { AbsorbedFrom.of_init hc with }⟩
  | append_singleton m d ih =>
    obtain ⟨t, hrun, htw, ht⟩ := ih (rest := encode (.absorb d) :: rest) (by simpa [absorbWords] using hw)
    obtain ⟨u, hu, huw, hc⟩ := (ht.inv hL).step_completes htw (by simp [ht.mode])
    rw [List.length_append]
    exact ⟨u, run_append_step hrun hu, huw, (ht.with_commands rest).append_one hL hc⟩

/-- Settles O41: each `ABSORB` takes the block-wise sponge one byte on. -/
theorem absorbingIsTheBlockwiseSponge : Obligations.AbsorbingIsTheBlockwiseSponge := by
  intro s L m rest hL hw
  obtain ⟨t, hrun, htw, ht⟩ := run_init_absorbWords hL hw
  exact ⟨t, hrun, htw, ht.mode, ht.outlen, ht.rate, ht.err, ht.cursor, ht.lanes, ht.responses⟩

/-! ### The fixed digest -/

theorem digestBytes_eq_map_range (A : Lanes) {n : Byte} (h : n.toNat ≤ 200) :
    digestBytes A n = (List.range n.toNat).map fun k => byteAt A (Fin.ofNat 200 k) := by
  refine List.ext_getElem (by simpa using h) fun k hk _ => ?_
  have hk' : k < 200 := by simp at hk; omega
  have hval : (⟨k, hk'⟩ : Fin 200) = Fin.ofNat 200 k := Fin.ext (Nat.mod_eq_of_lt hk').symm
  simpa [digestBytes] using congrArg (byteAt A) hval

/-- Settles O42: `FINALIZE` pads and permutes what `INIT` and `ABSORB` leave. -/
theorem hashIsTheSpongeOfThePaddedMessage : Obligations.HashIsTheSpongeOfThePaddedMessage := by
  intro s L m rest hL hw
  obtain ⟨t, hrun, htw, ht⟩ := run_init_absorbWords (rest := encode .finalize :: rest) hL
    (by simpa [hashWords] using hw)
  obtain ⟨u, hu, huw, hc⟩ := (ht.inv hL).step_completes htw (by simp [ht.mode])
  obtain ⟨-, -, hmax⟩ := rateOf_of_legalLength hL
  refine ⟨u, run_append_step hrun hu, huw, hc.mode_eq, hc.err_eq.trans ht.err, ?_⟩
  cases hc with
  | finalize _ hcur hterm hA =>
    rw [(ht.with_commands rest).spongeState_eq hL _ hcur hterm] at hA
    simp only [respond_responses, ht.responses, ht.outlen, hA, sha3Suffix,
      digestBytes_eq_map_range _ (show L.toNat ≤ 200 by omega)]

/-! ### The output stream -/

/-- `s` is what `q` `SQUEEZE` commands leave from `s₀`, a squeezing state at the start of a block: the
stream's first `q` bytes, with the permutation still deferred if byte `q` starts a block (R34, R144). -/
structure SqueezedFrom (s₀ : State) (q : Nat) (s : State) : Prop where
  inv : s.Inv
  mode : s.mode = .xofSqueezing
  rate : s.rate = s₀.rate
  err : s.err = s₀.err
  cursor : s.cursor.toNat = q - (q - 1) / s₀.rate.toNat * s₀.rate.toNat
  lanes : s.lanes = Reference.permuteTimes ((q - 1) / s₀.rate.toNat) s₀.lanes
  responses : s.responses = s₀.responses ++ (List.range q).map fun k =>
    ⟨.ok, [Reference.streamByte s₀.rate.toNat s₀.lanes k]⟩

namespace SqueezedFrom
variable {s₀ s t : State} {q : Nat}

theorem with_commands (h : SqueezedFrom s₀ q s) (cs : List CommandWord) :
    SqueezedFrom s₀ q { s with commands := cs } := { h with inv := h.inv }

theorem of_cursor_zero (hs : s.Inv) (hm : s.mode = .xofSqueezing) (hc : s.cursor = 0) :
    SqueezedFrom s 0 s :=
  ⟨hs, hm, rfl, rfl, by simp [hc], by simp [Reference.permuteTimes], by simp⟩

theorem rate_pos (h : SqueezedFrom s₀ q s) : 0 < s₀.rate.toNat := by
  obtain ⟨-, -, hpos, -⟩ := h.inv.context (by simp [h.mode])
  rw [← h.rate]
  omega

/-- The deferred permutation brings the core to byte `q mod RATE` of block `q div RATE` (R141). -/
theorem permuteIfUsedUp_eq (h : SqueezedFrom s₀ q s) :
    (permuteIfUsedUp s).cursor.toNat = q % s₀.rate.toNat ∧
      (permuteIfUsedUp s).lanes = Reference.permuteTimes (q / s₀.rate.toNat) s₀.lanes := by
  rw [permuteIfUsedUp_cursor, permuteIfUsedUp_lanes]
  simp only [BitVec.le_def, h.rate]
  obtain ⟨hin, hdiv, hmod⟩ | ⟨hend, hdiv, hmod⟩ := Reference.deferred_block_cases q h.rate_pos
  · rw [if_neg (by rw [h.cursor]; omega), if_neg (by rw [h.cursor]; omega), hdiv, hmod]
    exact ⟨h.cursor, h.lanes⟩
  · rw [if_pos (by rw [h.cursor]; omega), if_pos (by rw [h.cursor]; omega), hdiv, hmod, h.lanes,
      Reference.permuteTimes_succ]
    exact ⟨rfl, rfl⟩

/-- `SQUEEZE` emits byte `q` of the stream (R141, R144). -/
theorem append_one (h : SqueezedFrom s₀ q s) (hc : Completes .squeeze s t) :
    SqueezedFrom s₀ (q + 1) t := by
  obtain ⟨hcur, hlanes⟩ := h.permuteIfUsedUp_eq
  have hinv := hc.keeps_inv h.inv
  have hmode := hc.mode_eq
  have herr := hc.err_eq.trans h.err
  cases hc with
  | squeeze _ hlt =>
    refine ⟨hinv, hmode, by simpa using h.rate, herr, ?_, hlanes, ?_⟩
    · have := Nat.mod_add_div' q s₀.rate.toNat
      rw [respond_cursor, Nat.add_sub_cancel]
      bv_omega
    · have hbyte : (⟨_, hlt⟩ : Fin 200) = Fin.ofNat 200 (q % s₀.rate.toNat) :=
        Fin.ext (by rw [← hcur]; exact (Nat.mod_eq_of_lt hlt).symm)
      rw [respond_responses, permuteIfUsedUp_responses, h.responses, List.range_succ, hbyte, hlanes]
      simp [Reference.streamByte]

end SqueezedFrom

/-- `n` copies of `SQUEEZE` from the start of a block, by induction on the last one. -/
theorem run_squeezeWords {s : State} {n : Nat} {rest : List CommandWord} (hs : s.Inv)
    (hm : s.mode = .xofSqueezing) (hc : s.cursor = 0) (hw : s.commands = squeezeWords n ++ rest) :
    ∃ t, run n s = .next t ∧ t.commands = rest ∧ SqueezedFrom s n t := by
  induction n generalizing rest with
  | zero => exact ⟨s, rfl, hw, .of_cursor_zero hs hm hc⟩
  | succ n ih =>
    obtain ⟨t, hrun, htw, ht⟩ := ih (rest := encode .squeeze :: rest)
      (by simpa [squeezeWords, List.replicate_succ'] using hw)
    obtain ⟨u, hu, huw, hcomp⟩ := ht.inv.step_completes htw (by simp [ht.mode])
    exact ⟨u, run_append_step hrun hu, huw, (ht.with_commands rest).append_one hcomp⟩

/-- Settles O43: `BEGIN_SQUEEZE` leaves the sponge of the padded message at the start of its first block,
and the stream follows from there. -/
theorem shakeIsTheStreamOfThePaddedMessage : Obligations.ShakeIsTheStreamOfThePaddedMessage := by
  intro s L m n rest hL hw
  obtain ⟨t, hrun, htw, ht⟩ := run_init_absorbWords
    (rest := encode .beginSqueeze :: (squeezeWords n ++ rest)) hL (by simpa [xofWords] using hw)
  obtain ⟨u, hu, huw, hc⟩ := (ht.inv hL).step_completes htw (by simp [ht.mode])
  obtain ⟨v, hrunv, hvw, hv⟩ := run_squeezeWords (hc.keeps_inv (ht.inv hL)) hc.mode_eq
    (by cases hc; rfl) huw
  refine ⟨v, (run_add n (run_append_step hrun hu)).trans hrunv, hvw, hv.mode,
    (hv.err.trans hc.err_eq).trans ht.err, ?_⟩
  rw [hv.responses]
  cases hc with
  | beginSqueeze _ hcur hterm hA =>
    rw [(ht.with_commands (squeezeWords n ++ rest)).spongeState_eq hL _ hcur hterm] at hA
    simp only [respond_responses, respond_lanes, respond_rate, ht.responses, ht.rate, hA,
      shakeSuffix, List.replicate_succ', List.append_assoc]

end Sys2Proof.Machine

/-! The fixed-digest finalizer: what `FINALIZE` does to the state array, where it fails, and that it is not
repeated (`42_sha3_mode_finalizer.md`). -/

namespace Sys2Proof.Machine

/-! ### Words and failures -/

/-- A command without operand has one word; a step on a word with its `OPC` and any other bit set fails
(R64, R165). -/
theorem step_of_illegal_operandless {s : State} {w : CommandWord} {rest : List CommandWord} {opc : Nat}
    (hc : s.commands = w :: rest) (hopc : opc = 3 ∨ opc = 4 ∨ opc = 5) (hw : w.toNat / 4096 = opc)
    (hne : w.toNat ≠ 4096 * opc) :
    step s = .next (afterFailure .illegalCommand { s with commands := rest }) := by
  have hillegal : ∃ e, decode w = .error e := by
    rw [exists_decode_error_iff]
    omega
  obtain ⟨e, he⟩ := hillegal
  exact step_of_illegal_word hc he

/-- Outside the modes the lifecycle table gives a command, it raises INVALID_STATE (R110, R162). -/
theorem exec_of_tableStatus_invalidState {i : Instr} {s : State}
    (h : tableStatus s.mode i = .invalidState) :
    exec i s = .next (afterFailure .invalidState s) := by
  rw [exec_of_tableStatus_ne_ok (by simp [h]), h]

/-! ### Padding -/

/-- The padded array by the registers: the suffix at `CURSOR`, the terminator at `RATE - 1` (R130, R140). -/
theorem byteAt_padLanes_registers (A : Lanes) (suffix : Byte) {cursor rate : Byte}
    (hc : cursor.toNat < 200) (ht : (terminatorIndex rate).toNat < 200) (hr : 1 ≤ rate.toNat)
    (k : Fin 200) :
    byteAt (padLanes A suffix ⟨cursor.toNat, hc⟩ ⟨(terminatorIndex rate).toNat, ht⟩) k =
      byteAt A k ^^^ (if k.val = cursor.toNat then suffix else 0) ^^^
        (if k.val + 1 = rate.toNat then 0x80 else 0) := by
  have hterm : k.val = (terminatorIndex rate).toNat ↔ k.val + 1 = rate.toNat := by
    rw [← toNat_terminatorIndex_add_one hr, Nat.add_right_cancel_iff]
  simp only [byteAt_padLanes, Fin.ext_iff, hterm]

/-- Both XORs of `FINALIZE` at one byte (R131). -/
theorem xor_sha3Suffix_xor_terminator (b : Byte) : b ^^^ 0x06 ^^^ 0x80 = b ^^^ 0x86 :=
  BitVec.xor_assoc b 0x06 0x80

/-! ### `FINALIZE` -/

/-- `FINALIZE` in ABSORBING, where every byte it reaches exists: one permutation of the padded array, and
the digest of the result (R130). -/
theorem exec_finalize_of_absorbing {s : State} (hm : s.mode = .absorbing) (hc : s.cursor.toNat < 200)
    (ht : (terminatorIndex s.rate).toNat < 200) (ho : s.outlen.toNat ≤ 200) {B : Lanes}
    (hB : B = padLanes s.lanes sha3Suffix ⟨_, hc⟩ ⟨_, ht⟩) :
    exec .finalize s = .next (respond .ok (digestBytes (keccakF B) s.outlen)
      { s with lanes := keccakF B, mode := .fixedSqueezed }) := by
  obtain ⟨t, hexec⟩ := (exec_finalize_answers_iff hm).mpr ⟨hc, ht, ho⟩
  cases completes_of_tableStatus_ok (by simp [hm]) hexec with
  | finalize _ _ _ hA => rw [hexec, hA, hB]

/-- Settles O9: an illegal word fails as a word, a wrong mode as a command, and what is left completes. -/
theorem finalizePadsPermutesAndEmits : Obligations.FinalizePadsPermutesAndEmits := by
  refine ⟨decode_eq_finalize_iff, fun s w rest hw hopc hne => ?_, fun s hm => ?_,
    fun s hm hc hpos hle ho => ?_⟩
  · exact step_of_illegal_operandless hw (.inl rfl) hopc fun h => hne (BitVec.eq_of_toNat_eq h)
  · exact exec_of_tableStatus_invalidState (by simp [hm])
  · have ht : (terminatorIndex s.rate).toNat < 200 := terminatorIndex_lt_200_iff.mpr ⟨hpos, hle⟩
    have hexec := exec_finalize_of_absorbing hm hc ht ho rfl
    rw [digestBytes_eq_map_range _ ho] at hexec
    exact ⟨_, byteAt_padLanes_registers s.lanes sha3Suffix hc ht hpos, hexec⟩

/-- Settles O12: by O9 the two padding bytes of `FINALIZE` fall on one, and no other byte changes. -/
theorem mergedPaddingByteIsXoredWith86 : Obligations.MergedPaddingByteIsXoredWith86 := by
  intro s hm hlast hle ho
  obtain ⟨-, -, -, hfinalize⟩ := finalizePadsPermutesAndEmits
  obtain ⟨B, hB, hexec⟩ := hfinalize s hm (by omega) (by omega) hle ho
  refine ⟨B, _, hexec, rfl, fun k => ?_⟩
  rw [hB k, ← hlast]
  by_cases hk : k.val = s.cursor.toNat
  · simp only [hk, if_true, xor_sha3Suffix_xor_terminator]
  · simp [hk]

/-- Settles O13: the first `FINALIZE` leaves FIXED_SQUEEZED, where the lifecycle table refuses the second. -/
theorem secondFinalizeFails : Obligations.SecondFinalizeFails := by
  intro s rest hs hm hw
  obtain ⟨t, ht, htw, hc⟩ := hs.step_completes (i := .finalize) hw (by simp [hm])
  obtain ⟨-, -, -, -, hout⟩ := hs.context (by simp [hm])
  obtain ⟨data, hdata, hlen⟩ := hc.response fun _ => show s.outlen.toNat ≤ 200 by omega
  refine ⟨t, ht, ⟨data, hlen, hdata⟩, ?_⟩
  rw [step_of_legal_word htw (decode_encode .finalize)]
  exact exec_of_tableStatus_invalidState (s := { t with commands := rest })
    (by simp [hc.mode_eq, tableMode])

end Sys2Proof.Machine

/-! The extendable-output squeezer: what `BEGIN_SQUEEZE` and `SQUEEZE` do, the stream from the start of a
block, and runs of `SQUEEZE` put together (`43_shake_xof_absorber.md`). -/

namespace Sys2Proof.Machine

/-! ### `BEGIN_SQUEEZE` -/

/-- `BEGIN_SQUEEZE` in ABSORBING, where both padding bytes exist: one permutation of the padded array, and
the start of a block (R140). -/
theorem exec_beginSqueeze_of_absorbing {s : State} (hm : s.mode = .absorbing)
    (hc : s.cursor.toNat < 200) (ht : (terminatorIndex s.rate).toNat < 200) :
    exec .beginSqueeze s = .next (respond .ok []
      { s with
        lanes := keccakF (padLanes s.lanes shakeSuffix ⟨_, hc⟩ ⟨_, ht⟩), cursor := 0,
        mode := .xofSqueezing }) := by
  obtain ⟨t, hexec⟩ := (exec_beginSqueeze_answers_iff hm).mpr ⟨hc, ht⟩
  cases completes_of_tableStatus_ok (by simp [hm]) hexec with
  | beginSqueeze _ _ _ hA => rw [hexec, hA]

/-- Settles O10: an illegal word fails as a word, a wrong mode as a command, and what is left pads and
permutes. -/
theorem beginSqueezePadsPermutesAndResetsCursor :
    Obligations.BeginSqueezePadsPermutesAndResetsCursor := by
  refine ⟨decode_eq_beginSqueeze_iff, fun s w rest hw hopc hne => ?_, fun s hm => ?_,
    fun s hm hc hpos hle => ?_⟩
  · exact step_of_illegal_operandless hw (.inr (.inl rfl)) hopc fun h =>
      hne (BitVec.eq_of_toNat_eq h)
  · exact exec_of_tableStatus_invalidState (by simp [hm])
  · have ht : (terminatorIndex s.rate).toNat < 200 := terminatorIndex_lt_200_iff.mpr ⟨hpos, hle⟩
    exact ⟨_, byteAt_padLanes_registers s.lanes shakeSuffix hc ht hpos,
      exec_beginSqueeze_of_absorbing hm hc ht⟩

/-! ### `SQUEEZE` -/

/-- Within a block the permutation stays deferred (R34). -/
theorem permuteIfUsedUp_of_lt {s : State} (h : s.cursor.toNat < s.rate.toNat) :
    permuteIfUsedUp s = s := if_neg (Nat.not_le.mpr h)

/-- When the block is used up the deferred permutation runs (R34). -/
theorem permuteIfUsedUp_of_le {s : State} (h : s.rate.toNat ≤ s.cursor.toNat) :
    permuteIfUsedUp s = { permute s with cursor := 0 } := if_pos h

/-- `SQUEEZE` in XOF_SQUEEZING, by what the deferred permutation leaves: the byte at the cursor, and the
cursor advances (R141). -/
theorem exec_squeeze_of_xofSqueezing {s p : State} (hm : s.mode = .xofSqueezing)
    (hp : permuteIfUsedUp s = p) (hc : p.cursor.toNat < 200) :
    exec .squeeze s = .next (respond .ok [byteAt p.lanes ⟨_, hc⟩] { p with cursor := p.cursor + 1 }) := by
  subst hp
  obtain ⟨t, hexec⟩ := (exec_squeeze_answers_iff hm).mpr hc
  cases completes_of_tableStatus_ok (by simp [hm]) hexec with
  | squeeze => exact hexec

theorem State.Inv.cursor_le {s : State} (h : s.Inv) (hm : s.mode = .xofSqueezing) :
    s.cursor ≤ s.rate := by
  obtain ⟨-, -, -, hc⟩ := h
  exact hc hm

/-- Settles O11: the two branches are the two of the deferred permutation. -/
theorem squeezeEmitsOneByte : Obligations.SqueezeEmitsOneByte := by
  refine ⟨decode_eq_squeeze_iff, fun s w rest hw hopc hne => ?_, fun s hm => ?_,
    fun s hc hm hlt => ?_, fun s hm hle => ?_, fun s hs hm => ?_⟩
  · exact step_of_illegal_operandless hw (.inr (.inr rfl)) hopc fun h =>
      hne (BitVec.eq_of_toNat_eq h)
  · exact exec_of_tableStatus_invalidState (by simp [hm])
  · exact exec_squeeze_of_xofSqueezing hm (permuteIfUsedUp_of_lt hlt) hc
  · exact exec_squeeze_of_xofSqueezing hm (permuteIfUsedUp_of_le hle)
      (by decide : (0 : Byte).toNat < 200)
  · obtain ⟨-, -, -, hmax, -⟩ := hs.context (by simp [hm])
    exact ⟨hs.cursor_le hm, hmax⟩

/-! ### The stream from the start of a block -/

/-- Settles O44: the cursor of `SqueezedFrom` is what is left of the block that holds byte `n - 1`. -/
theorem squeezeStreamFollowsTheBlocks : Obligations.SqueezeStreamFollowsTheBlocks := by
  intro s n hs hm hc hw
  obtain ⟨t, hrun, -, ht⟩ := run_squeezeWords (rest := []) hs hm hc
    (hw.trans (List.append_nil _).symm)
  refine ⟨t, hrun, ht.responses, ht.lanes, fun hn => ?_⟩
  have := Nat.mod_add_div' (n - 1) s.rate.toNat
  rw [ht.cursor]
  omega

/-! ### Runs and earlier responses -/

/-- A step adds the same responses, whatever was answered before (R50, R55). -/
theorem step_with_responses {s t : State} (h : step s = .next t) :
    ∃ rs, t.responses = s.responses ++ rs ∧
      ∀ before, step { s with responses := before } = .next { t with responses := before ++ rs } := by
  obtain ⟨hw, hs⟩ | ⟨w, rest, i, hw, hd, hs⟩ | ⟨w, rest, e, hw, hd, -⟩ := step_cases s
  · cases hs.symm.trans h
    refine ⟨[], by simp, fun before => ?_⟩
    rw [List.append_nil]
    exact step_of_no_word (s := { s with responses := before }) hw
  · have hexec := hs.symm.trans h
    obtain rfl : t.commands = rest := exec_commands hexec
    obtain ⟨r, hr, -⟩ := exec_response_frame hexec
    refine ⟨[r], hr, fun before => ?_⟩
    obtain ⟨r', hr', hbefore⟩ := commandsAreFunctionsOfCoreAndWord i _ t t.commands before hexec
    obtain rfl : r' = r := by simpa [hr] using hr'.symm
    exact (step_of_legal_word (s := { s with responses := before }) hw hd).trans hbefore
  · cases (step_of_illegal_word hw hd).symm.trans h
    exact ⟨_, rfl, fun before =>
      step_of_illegal_word (s := { s with responses := before }) hw hd⟩

/-- A run adds the same responses, whatever was answered before. -/
theorem run_with_responses {n : Nat} {s t : State} (h : run n s = .next t) :
    ∃ rs, t.responses = s.responses ++ rs ∧
      ∀ before, run n { s with responses := before } = .next { t with responses := before ++ rs } := by
  induction n generalizing s with
  | zero =>
    cases h
    exact ⟨[], by simp, fun before => by simp [run]⟩
  | succ n ih =>
    obtain ⟨u, hu, hrun⟩ := run_succ_eq_next h
    obtain ⟨rs, hrs, hstep⟩ := step_with_responses hu
    obtain ⟨rs', hrs', hrest⟩ := ih hrun
    refine ⟨rs ++ rs', by rw [hrs', hrs, List.append_assoc], fun before => ?_⟩
    rw [run_succ_of_step (hstep before), hrest, List.append_assoc]

/-! ### Output in two parts -/

theorem resultData_append (as bs : List Response) :
    resultData (as ++ bs) = resultData as ++ resultData bs := by
  simp [resultData_eq_flatten]

theorem resultData_append_one (rs : List Response) (r : Response) :
    resultData (rs ++ [r]) = resultData rs ++ r.data := by
  simp [resultData_append, resultData]

@[simp] theorem length_squeezeWords (n : Nat) : (squeezeWords n).length = n :=
  List.length_replicate

theorem squeezeWords_add (m n : Nat) : squeezeWords (m + n) = squeezeWords m ++ squeezeWords n :=
  List.replicate_add m n _

/-- `m + n` copies of `SQUEEZE` are the last `n` run after the first `m` (R53). -/
theorem run_squeezeWords_add {s t : State} {m : Nat} (n : Nat)
    (h : run m { s with commands := squeezeWords m } = .next t) :
    run (m + n) { s with commands := squeezeWords (m + n) } =
      run n { t with commands := squeezeWords n } := by
  have hcompose := commandsComposeInOrder s t (squeezeWords m) (squeezeWords n)
  rw [length_squeezeWords, length_squeezeWords, ← squeezeWords_add] at hcompose
  obtain ⟨-, hrun⟩ := hcompose h
  exact hrun

/-- From any squeezing state with legal registers, also within a block, `n` copies of `SQUEEZE` answer `n`
bytes and leave such a state. -/
theorem run_squeezeWords_of_inv {s : State} {n : Nat} (hs : s.Inv) (hm : s.mode = .xofSqueezing)
    (hw : s.commands = squeezeWords n) :
    ∃ t, run n s = .next t ∧ t.Inv ∧ t.mode = .xofSqueezing ∧
      (resultData t.responses).length = (resultData s.responses).length + n := by
  induction n generalizing s with
  | zero => exact ⟨s, rfl, hs, hm, rfl⟩
  | succ n ih =>
    obtain ⟨u, hu, huw, hc⟩ := hs.step_completes (i := .squeeze) hw (by simp [hm])
    obtain ⟨data, hdata, hone⟩ := hc.response (by simp)
    obtain ⟨t, hrun, hinv, hmode, hlen⟩ := ih (hc.keeps_inv hs) hc.mode_eq huw
    refine ⟨t, (run_succ_of_step hu).trans hrun, hinv, hmode, ?_⟩
    rw [hlen, hdata, resultData_append_one, List.length_append, hone]
    exact Nat.succ_add_eq_add_succ _ n

/-- Settles O45: the run of `n1 + n2` words is that of `n2` words after that of `n1`, and the second adds
to the responses of the first what it answers from an empty list. -/
theorem squeezingIsPrefixConsistent : Obligations.SqueezingIsPrefixConsistent := by
  intro s n1 n2 hs hm
  obtain ⟨t1, hrun1, hinv1, hm1, hlen1⟩ := run_squeezeWords_of_inv
    (s := { s with commands := squeezeWords n1, responses := [] }) hs hm rfl
  obtain ⟨t2, hrun2, -, -, hlen2⟩ := run_squeezeWords_of_inv
    (s := { t1 with commands := squeezeWords n2, responses := [] }) hinv1 hm1 rfl
  obtain ⟨rs, rfl, hafter⟩ := run_with_responses hrun2
  have hrun := (run_squeezeWords_add (s := { s with responses := [] }) n2 hrun1).trans
    (hafter t1.responses)
  refine ⟨t1, t2, _, hrun1, hrun2, hrun, resultData_append _ _, ?_⟩
  simp [resultData_append, hlen1, hlen2, resultData]

end Sys2Proof.Machine

/-! Failures: what each status means for the word that raised it and for the state, `ERR` over a sequence
of commands, a core that waits, and several cores on one platform (`60_exceptions.md`). -/

namespace Sys2Proof.Machine

/-! ### Waiting -/

/-- Settles O6: by induction on the number of steps, each of which waits. -/
theorem waitingCoreLosesNoState : Obligations.WaitingCoreLosesNoState := by
  intro s n hw
  induction n with
  | zero => rfl
  | succ n ih => rw [run_succ_of_step (step_of_no_word hw), ih]

/-! ### The status of a response -/

/-- Settles O18: a step either waits, and then it has no response, or it fails as R165 says, or the command
completes, and then the status is OK. -/
theorem failureChangesOnlyErr : Obligations.FailureChangesOnlyErr := by
  intro s t w rest r hw h hr hne
  obtain rfl | ⟨w', rest', hw', ⟨E, -, rfl⟩ | ⟨i, -, hc⟩⟩ := step_next_cases h
  · simp at hr
  · obtain ⟨rfl, rfl⟩ : w = w' ∧ rest = rest' := by simpa [hw] using hw'
    obtain rfl : ⟨E, []⟩ = r := by simpa using hr
    rfl
  · obtain ⟨data, hr'⟩ := hc.responses_eq
    obtain rfl : ⟨.ok, data⟩ = r := by simpa [hr'] using hr
    exact absurd rfl hne

/-- The status a word gets in a mode: the lifecycle table's for a command (R110), ILLEGAL_COMMAND in every
mode for any other word (R163, R166). -/
def wordStatus (m : Mode) (w : CommandWord) : Status :=
  match decode w with
  | .ok i => tableStatus m i
  | .error _ => .illegalCommand

theorem wordStatus_of_legal_word {w : CommandWord} {i : Instr} (hd : decode w = .ok i) (m : Mode) :
    wordStatus m w = tableStatus m i := by
  simp [wordStatus, hd]

theorem wordStatus_of_illegal_word {w : CommandWord} {e : IllegalWord} (hd : decode w = .error e)
    (m : Mode) : wordStatus m w = .illegalCommand := by
  simp [wordStatus, hd]

theorem exec_response_status {i : Instr} {s t : State} (h : exec i s = .next t) :
    ∃ data, t.responses = s.responses ++ [⟨tableStatus s.mode i, data⟩] := by
  obtain ⟨-, rfl⟩ | ⟨hok, hc⟩ := exec_cases h
  · exact ⟨[], rfl⟩
  · rw [hok]
    exact hc.responses_eq

/-- A step that takes a word answers with the status the word has in the mode before it. -/
theorem step_response_status {s t : State} {w : CommandWord} {rest : List CommandWord}
    (hw : s.commands = w :: rest) (h : step s = .next t) :
    ∃ data, t.responses = s.responses ++ [⟨wordStatus s.mode w, data⟩] := by
  cases hd : decode w with
  | ok i =>
    rw [wordStatus_of_legal_word hd]
    exact exec_response_status (s := { s with commands := rest })
      ((step_of_legal_word hw hd).symm.trans h)
  | error e =>
    cases (step_of_illegal_word hw hd).symm.trans h
    exact ⟨[], by rw [wordStatus_of_illegal_word hd]; rfl⟩

theorem tableStatus_ne_illegalCommand (m : Mode) (i : Instr) : tableStatus m i ≠ .illegalCommand := by
  cases i <;> simp [ite_eq_iff]

theorem tableStatus_eq_invalidParameter_iff {m : Mode} {i : Instr} :
    tableStatus m i = .invalidParameter ↔
      ∃ L, i = .init L ∧ L ∉ [16, 20, 28, 32, 48, 64] := by
  cases i with
  | init L => simp [legalLength, and_assoc]
  | absorb | finalize | beginSqueeze | squeeze => simp [ite_eq_iff]

theorem tableStatus_eq_invalidState_iff {m : Mode} {i : Instr} :
    tableStatus m i = .invalidState ↔
      (((∃ d, i = .absorb d) ∨ i = .finalize ∨ i = .beginSqueeze) ∧ m ≠ .absorbing) ∨
      (i = .squeeze ∧ m ≠ .xofSqueezing) := by
  cases i with
  | init L => simp [ite_eq_iff]
  | absorb | finalize | beginSqueeze | squeeze => simp

/-- Settles O19: the status is the one the word has in the mode before, and that one is read off the decoder
and the lifecycle table. -/
theorem eachStatusHasItsCause : Obligations.EachStatusHasItsCause := by
  intro s t w rest r hw h hr
  obtain ⟨data, hdata⟩ := step_response_status hw h
  obtain rfl : ⟨wordStatus s.mode w, data⟩ = r := by simpa [hdata] using hr
  cases hd : decode w with
  | ok i =>
    simp [wordStatus_of_legal_word hd, tableStatus_ne_illegalCommand,
      tableStatus_eq_invalidParameter_iff, tableStatus_eq_invalidState_iff]
  | error e => simp [wordStatus_of_illegal_word hd]

/-! ### `ERR` over a sequence of commands -/

/-- What every step keeps, every run keeps. -/
theorem run_keeps {P : State → Prop} (hstep : ∀ s t, P s → step s = .next t → P t) {n : Nat}
    {s t : State} (hs : P s) (h : run n s = .next t) : P t := by
  induction n generalizing s with
  | zero =>
    cases h
    exact hs
  | succ n ih =>
    obtain ⟨u, hu, hrun⟩ := run_succ_eq_next h
    exact ih (hstep s u hs hu) hrun

theorem resultStatus_eq_ok_iff (rs : List Response) :
    resultStatus rs = .ok ↔ ∀ r ∈ rs, r.status = .ok := by
  induction rs with
  | nil => simp [resultStatus]
  | cons r rs ih => by_cases hr : r.status = .ok <;> simp [resultStatus, hr, ih]

/-- Settles O22: from reset `ERR` is the status fold of the responses (O21), which is OK if all are. -/
theorem errIsOkIffEveryCommandWasOk : Obligations.ErrIsOkIffEveryCommandWasOk := by
  intro ws n t h
  obtain ⟨-, hstep, -⟩ := errHoldsTheFirstFailure
  have herr : t.err = resultStatus t.responses :=
    run_keeps (P := fun s => s.err = resultStatus s.responses) hstep rfl h
  rw [herr, resultStatus_eq_ok_iff]

/-! ### Several cores -/

/-- A core of a platform steps as it would alone, and its place in the list is all that is written. -/
theorem Platform.stepCore_eq_next {p q : Platform} {j : Fin p.cores.length}
    (h : p.stepCore j = .next q) :
    ∃ t, step (p.cores.get j) = .next t ∧ q.cores = p.cores.set j.val t := by
  unfold Platform.stepCore at h
  split at h
  next t ht =>
    cases h
    exact ⟨t, ht, rfl⟩
  next => cases h
  next => cases h

/-- Settles O49: a write to one place of a list leaves its length and the other places. -/
theorem coresAreIndependent : Obligations.CoresAreIndependent := by
  refine ⟨fun p q j h => ?_, fun s => List.eq_of_mem_replicate, List.length_replicate⟩
  obtain ⟨t, ht, hq⟩ := Platform.stepCore_eq_next h
  rw [hq]
  exact ⟨List.length_set, ⟨t, ht, List.getElem?_set_self j.isLt⟩,
    fun k hk => List.getElem?_set_ne hk.symm⟩

end Sys2Proof.Machine
